-- ==== Sys2Proof/Word.lean ====
section
/-!
DEFINITION. The word types of the core and the names of its sixteen registers and keys (spec/00_scope.md R4 to R6).
-/

namespace Sys2Proof

/-- An 8-bit value: a memory cell, a general register, a timer. -/
abbrev Byte := BitVec 8

/-- A 16-bit value: an instruction word, `I`, `PC`, a stack entry. -/
abbrev Word := BitVec 16

/-- A 12-bit address field `nnn`. -/
abbrev Addr12 := BitVec 12

/-- A 4-bit quantity (glossary of spec/00_scope.md). -/
abbrev Nibble := BitVec 4

/-- A general-register number, 0 to 15 (R21: every 4-bit field value is a legal register number). -/
abbrev Reg := Fin 16

/-- A key number, 0 to 15 (R28). -/
abbrev Key := Fin 16

/-- `VF`, register 15, which several instructions write as a flag (R22). -/
abbrev VF : Reg := 15

/-- The register a 4-bit field selects. -/
def Reg.ofNibble (n : Nibble) : Reg := n.toFin

/-- The 4-bit field that selects a register. -/
def Reg.toNibble (r : Reg) : Nibble := BitVec.ofFin r

end Sys2Proof
end

