-- ==== Sys2Proof/Config.lean ====
section
/-!
DEFINITION. What an implementation fixes (spec/00_scope.md R4) and the free values, which nothing in Lean can evaluate. The
default values of the parameters `OPMAP`, `FONT` and `STRICT_XY0` stand in files that a repair may mend: `opmap` and
`strictXY0` in Decode.lean, `Machine.font` in Machine/Ops.lean; so does `keyMask` (Machine/Operands.lean).
-/

namespace Sys2Proof

/-- A value of the parameter `OPMAP` (R4, D10): the numeric labels that the document does not confirm. The five points of
spec/30_encoding.md R89 (`00E0`, `1nnn`, `6xnn`, `7xnn`, `Fx0A`) and the shape of R74 are no part of it. -/
structure OpMap where
  /-- The whole word of `RET`, under top nibble 0. -/
  ret : Word
  /-- Top nibbles. -/
  call : Nibble
  seImm : Nibble
  sneImm : Nibble
  seReg : Nibble
  sneReg : Nibble
  alu : Nibble
  ldI : Nibble
  jpV0 : Nibble
  rnd : Nibble
  drw : Nibble
  keys : Nibble
  /-- Selectors `n` of the register-to-register group. -/
  ldReg : Nibble
  orReg : Nibble
  andReg : Nibble
  xorReg : Nibble
  addReg : Nibble
  sub : Nibble
  shr : Nibble
  subn : Nibble
  shl : Nibble
  /-- Selectors `nn` of the key group. -/
  skp : Byte
  sknp : Byte
  /-- Selectors `nn` of top nibble F. -/
  ldVxDt : Byte
  ldDtVx : Byte
  ldStVx : Byte
  addI : Byte
  ldF : Byte
  ldB : Byte
  stRegs : Byte
  ldRegs : Byte
  deriving DecidableEq, Repr

/-- An assignment that gives no two operations one label, the five points of R89 counted. -/
def OpMap.wf (m : OpMap) : Bool :=
  decide ([0x0, 0x1, 0x6, 0x7, 0xF, m.call, m.seImm, m.sneImm, m.seReg, m.sneReg, m.alu, m.ldI, m.jpV0, m.rnd, m.drw,
    m.keys] : List Nibble).Nodup &&
  decide ([m.ldReg, m.orReg, m.andReg, m.xorReg, m.addReg, m.sub, m.shr, m.subn, m.shl] : List Nibble).Nodup &&
  decide ([m.skp, m.sknp] : List Byte).Nodup &&
  decide ([0x0A, m.ldVxDt, m.ldDtVx, m.ldStVx, m.addI, m.ldF, m.ldB, m.stRegs, m.ldRegs] : List Byte).Nodup &&
  decide (m.ret.extractLsb' 12 4 = 0x0) && decide (m.ret ≠ 0x00E0)

/-- The parameters of R4 that are fixed for a run and are no state (R34): an argument of fetching and executing (`stepWith`)
and of reset (`State.resetWith`). `rand` is a free value below; `CLOCK_PERIOD` is one of the `RealValues`. -/
structure Params where
  /-- `OPMAP` -/
  opmap : OpMap
  /-- `FONT`, 80 bytes -/
  font : Vector Byte 80
  /-- `STRICT_XY0` -/
  strictXY0 : Bool
  deriving DecidableEq, Repr

/-- The real numbers of one run, an argument of the host scheduler: the parameter `CLOCK_PERIOD`, which the spec leaves OPEN and
positive (R4, D12; log 9), and the numbers that the host hands to the scheduler, under no law (D18; log 8).
`State` refers to them by name. -/
structure RealValues where
  /-- `CLOCK_PERIOD`, in seconds -/
  clockPeriod : ℝ
  clockPeriod_pos : 0 < clockPeriod
  /-- The host's number `k`: an elapsed time, a rate or a factor. -/
  host : Nat → ℝ

end Sys2Proof

namespace Sys2Proof.Config

/-- `MEM_SIZE`: addresses 0x000 to 0xFFF (R4, R50). -/
abbrev memSize : Nat := 0x1000

/-- `PROG_BASE`: load address and reset `PC` (R4). -/
abbrev progBase : Nat := 0x200

/-- The largest program image, 0x1000 - 0x200 bytes (spec/70_reset_and_hazards.md R251). -/
abbrev romMax : Nat := 3584

/-- FREE VALUE: the random source `rand`, byte `k` of the run's sequence, under no law (spec/10_state.md R31, D8; log 4). -/
opaque rand : Nat → Byte

/-- FREE VALUE: the bytes, registers and pixels that a multi-byte transfer stopped by MemoryOutOfRange has left
unspecified (spec/60_exceptions.md R216; log 6). -/
opaque freeByte : Nat → Byte

/-- One period of the 60 Hz timer cadence, in seconds (R4 `TIMER_HZ`). -/
def timerPeriod : Rat := mkRat 1 60

end Sys2Proof.Config
end

