-- ==== Sys2Proof/Syntax.lean ====
section
/-!
DEFINITION. The instructions: one constructor per row of spec/opcode_table.json, operands already pulled out of the word
(spec/30_encoding.md R71 to R73, R88).
-/

namespace Sys2Proof

/-- The 35 operations of R88, in its order. `x`, `y` are register numbers, `nn` an 8-bit immediate, `nnn` a 12-bit
address, `n` a row count. Bits an operation ignores (R80, R81) are no part of it. -/
inductive Instr where
  /-- `00E0` CLS, clear screen (R171) -/
  | cls
  /-- `00EE` RET, return (R101) -/
  | ret
  /-- `0nnn` SYS nnn, legacy call (R102) -/
  | sys (nnn : Addr12)
  /-- `1nnn` JP nnn (R103) -/
  | jp (nnn : Addr12)
  /-- `2nnn` CALL nnn (R104) -/
  | call (nnn : Addr12)
  /-- `3xnn` SE Vx,nn (R105) -/
  | seImm (x : Reg) (nn : Byte)
  /-- `4xnn` SNE Vx,nn (R106) -/
  | sneImm (x : Reg) (nn : Byte)
  /-- `5xy_` SE Vx,Vy (R107) -/
  | seReg (x y : Reg)
  /-- `9xy_` SNE Vx,Vy (R108) -/
  | sneReg (x y : Reg)
  /-- `6xnn` LD Vx,nn (R121) -/
  | ldImm (x : Reg) (nn : Byte)
  /-- `7xnn` ADD Vx,nn (R122) -/
  | addImm (x : Reg) (nn : Byte)
  /-- `8xy0` LD Vx,Vy (R123) -/
  | ldReg (x y : Reg)
  /-- `8xy1` OR Vx,Vy (R124) -/
  | orReg (x y : Reg)
  /-- `8xy2` AND Vx,Vy (R125) -/
  | andReg (x y : Reg)
  /-- `8xy3` XOR Vx,Vy (R126) -/
  | xorReg (x y : Reg)
  /-- `8xy4` ADD Vx,Vy (R127) -/
  | addReg (x y : Reg)
  /-- `8xy5` SUB Vx,Vy (R128) -/
  | sub (x y : Reg)
  /-- `8xy7` SUBN Vx,Vy (R130) -/
  | subn (x y : Reg)
  /-- `8x_6` SHR Vx (R129) -/
  | shr (x : Reg)
  /-- `8x_E` SHL Vx (R131) -/
  | shl (x : Reg)
  /-- `Annn` LD I,nnn (R150) -/
  | ldI (nnn : Addr12)
  /-- `Bnnn` JP V0,nnn (R109) -/
  | jpV0 (nnn : Addr12)
  /-- `Cxnn` RND Vx,nn (R132) -/
  | rnd (x : Reg) (nn : Byte)
  /-- `Dxyn` DRW Vx,Vy,n (R172) -/
  | drw (x y : Reg) (n : Nibble)
  /-- `Ex9E` SKP Vx (R190) -/
  | skp (x : Reg)
  /-- `ExA1` SKNP Vx (R191) -/
  | sknp (x : Reg)
  /-- `Fx07` LD Vx,DT (R192) -/
  | ldVxDt (x : Reg)
  /-- `Fx0A` LD Vx,K (R193) -/
  | ldVxK (x : Reg)
  /-- `Fx15` LD DT,Vx (R194) -/
  | ldDtVx (x : Reg)
  /-- `Fx18` LD ST,Vx (R195) -/
  | ldStVx (x : Reg)
  /-- `Fx1E` ADD I,Vx (R151) -/
  | addI (x : Reg)
  /-- `Fx29` LD F,Vx (R152) -/
  | ldF (x : Reg)
  /-- `Fx33` LD B,Vx (R153) -/
  | ldB (x : Reg)
  /-- `Fx55` LD [I],Vx, register dump (R154) -/
  | stRegs (x : Reg)
  /-- `Fx65` LD Vx,[I], register load (R155) -/
  | ldRegs (x : Reg)
  deriving DecidableEq, Repr

end Sys2Proof
end

