-- ==== Sys2Proof/Decode.lean ====
section
/-!
DEFINITION. The decoder, the one reading of a 16-bit word that execution uses (spec/30_encoding.md R70 to R85), and the
encoder written from the same encoding table (R72, R88). The numeric opcode assignment is the parameter `OPMAP`; its default
is the spec's (log 1).
-/

namespace Sys2Proof

/-! ### Fields (R71) -/

/-- Bits 15:12, the primary selector. -/
def opOf (w : Word) : Nibble := w.extractLsb' 12 4

/-- Bits 11:8, the first register field. -/
def xOf (w : Word) : Nibble := w.extractLsb' 8 4

/-- Bits 7:4, the second register field. -/
def yOf (w : Word) : Nibble := w.extractLsb' 4 4

/-- Bits 3:0, a row count or a selector. -/
def nOf (w : Word) : Nibble := w.extractLsb' 0 4

/-- Bits 7:0, an immediate or a selector. -/
def nnOf (w : Word) : Byte := w.extractLsb' 0 8

/-- Bits 11:0, an address. -/
def nnnOf (w : Word) : Addr12 := w.extractLsb' 0 12

/-! ### Formats (R72): the same fields laid together, bit 15 first -/

/-- Formats FIXED and NNN. -/
def wordNNN (op : Nibble) (nnn : Addr12) : Word := op ++ nnn

/-- Formats XNN and XSS. -/
def wordXNN (op : Nibble) (x : Reg) (nn : Byte) : Word := op ++ x.toNibble ++ nn

/-- Formats XYN and XY. -/
def wordXYN (op : Nibble) (x y : Reg) (n : Nibble) : Word := op ++ x.toNibble ++ y.toNibble ++ n

/-! ### The decode function -/

/-- `STRICT_XY0` (R4, D6): false, the low nibble of `5xyN` and `9xyN` is not examined (R80; log 3). -/
def strictXY0 : Bool := false

/-- `OPMAP` (R4, D10): the default assignment of R88 (log 1). -/
def opmap : OpMap where
  ret := 0x00EE
  call := 0x2
  seImm := 0x3
  sneImm := 0x4
  seReg := 0x5
  sneReg := 0x9
  alu := 0x8
  ldI := 0xA
  jpV0 := 0xB
  rnd := 0xC
  drw := 0xD
  keys := 0xE
  ldReg := 0x0
  orReg := 0x1
  andReg := 0x2
  xorReg := 0x3
  addReg := 0x4
  sub := 0x5
  shr := 0x6
  subn := 0x7
  shl := 0xE
  skp := 0x9E
  sknp := 0xA1
  ldVxDt := 0x07
  ldDtVx := 0x15
  ldStVx := 0x18
  addI := 0x1E
  ldF := 0x29
  ldB := 0x33
  stRegs := 0x55
  ldRegs := 0x65

/-- Why bytes give no instruction. -/
inductive DecodeError where
  /-- The word matches no operation; it carries the raw word (R82). Raised by `decode`; `step` turns it into the fault
  of R211. Safe: this is the spec's own behaviour. -/
  | decodeFailure (w : Word)
  /-- Fewer than the two bytes of an instruction (R70). Raised by `decodeBytes` alone; `step` always fetches two. Safe. -/
  | truncated
  deriving DecidableEq, Repr

/-- Top nibble 0: two whole-word matches, every other word is `SYS` (R75). -/
def decodeZero (m : OpMap) (w : Word) : Instr :=
  if w = 0x00E0 then .cls
  else if w = m.ret then .ret
  else .sys (nnnOf w)

/-- The register-to-register group: the selector is `n` (R77). `SHR` and `SHL` do not look at `y` (R81). -/
def decodeAlu (m : OpMap) (x y : Reg) (n : Nibble) : Option Instr :=
  if n = m.ldReg then some (.ldReg x y)
  else if n = m.orReg then some (.orReg x y)
  else if n = m.andReg then some (.andReg x y)
  else if n = m.xorReg then some (.xorReg x y)
  else if n = m.addReg then some (.addReg x y)
  else if n = m.sub then some (.sub x y)
  else if n = m.shr then some (.shr x)
  else if n = m.subn then some (.subn x y)
  else if n = m.shl then some (.shl x)
  else none

/-- The key group: the selector is `nn` (R78). -/
def decodeKeys (m : OpMap) (x : Reg) (nn : Byte) : Option Instr :=
  if nn = m.skp then some (.skp x)
  else if nn = m.sknp then some (.sknp x)
  else none

/-- Top nibble F: the selector is `nn` (R79). -/
def decodeMisc (m : OpMap) (x : Reg) (nn : Byte) : Option Instr :=
  if nn = 0x0A then some (.ldVxK x)
  else if nn = m.ldVxDt then some (.ldVxDt x)
  else if nn = m.ldDtVx then some (.ldDtVx x)
  else if nn = m.ldStVx then some (.ldStVx x)
  else if nn = m.addI then some (.addI x)
  else if nn = m.ldF then some (.ldF x)
  else if nn = m.ldB then some (.ldB x)
  else if nn = m.stRegs then some (.stRegs x)
  else if nn = m.ldRegs then some (.ldRegs x)
  else none

/-- The register-compare skips: their low nibble matters only under `STRICT_XY0` (R80). -/
def decodeXY (strict : Bool) (n : Nibble) (i : Instr) : Option Instr :=
  if strict && n != 0x0 then none else some i

/-- The dispatch of R74 for either value of `STRICT_XY0` and any `OPMAP`. -/
def decodeWith (strict : Bool) (w : Word) (m : OpMap := opmap) : Option Instr :=
  let op := opOf w
  let x := Reg.ofNibble (xOf w)
  let y := Reg.ofNibble (yOf w)
  if op = 0x0 then some (decodeZero m w)
  else if op = 0x1 then some (.jp (nnnOf w))
  else if op = m.call then some (.call (nnnOf w))
  else if op = m.seImm then some (.seImm x (nnOf w))
  else if op = m.sneImm then some (.sneImm x (nnOf w))
  else if op = m.seReg then decodeXY strict (nOf w) (.seReg x y)
  else if op = 0x6 then some (.ldImm x (nnOf w))
  else if op = 0x7 then some (.addImm x (nnOf w))
  else if op = m.alu then decodeAlu m x y (nOf w)
  else if op = m.sneReg then decodeXY strict (nOf w) (.sneReg x y)
  else if op = m.ldI then some (.ldI (nnnOf w))
  else if op = m.jpV0 then some (.jpV0 (nnnOf w))
  else if op = m.rnd then some (.rnd x (nnOf w))
  else if op = m.drw then some (.drw x y (nOf w))
  else if op = m.keys then decodeKeys m x (nnOf w)
  else if op = 0xF then decodeMisc m x (nnOf w)
  -- reached under no `OPMAP` that is `OpMap.wf`: its sixteen top nibbles are all there are
  else none

/-- `decode(w)` of R74: an operation with its fields, or `DecodeFailure(w)`. -/
def decode (w : Word) : Except DecodeError Instr :=
  match decodeWith strictXY0 w with
  | some i => .ok i
  | none => .error (.decodeFailure w)

/-! ### Bytes -/

/-- The big-endian word of two bytes: the byte at the lower address is `w[15:8]` (spec/20_memory.md R54). -/
def wordOfBytes (hi lo : Byte) : Word := hi ++ lo

/-- The two bytes of a word, the one at the lower address first (R54). -/
def bytesOfWord (w : Word) : Byte × Byte := (w.extractLsb' 8 8, w.extractLsb' 0 8)

/-- The instruction at the head of a byte list, with the bytes after it: every instruction is two bytes (R70, R84). -/
def decodeBytes : List Byte → Except DecodeError (Instr × List Byte)
  | hi :: lo :: rest =>
    match decode (wordOfBytes hi lo) with
    | .ok i => .ok (i, rest)
    | .error e => .error e
  | _ => .error .truncated

/-- The word that spec/opcode_table.json's numbering gives an instruction: `nbits` bits of `w`, every bit above them 0. -/
def tableWord (nbits w : Nat) : Word := BitVec.ofNat 16 (w % 2 ^ nbits)

/-- What the decoder reads from a word numbered as spec/opcode_table.json numbers it, laid out as the hardware stores it. -/
def decodeTableWord (nbits w : Nat) : Option Instr :=
  let b := bytesOfWord (tableWord nbits w)
  match decodeBytes [b.1, b.2] with
  | .ok (i, _) => some i
  | .error _ => none

/-! ### The encoder -/

/-- The word of an instruction under an `OPMAP`; ignored bits are 0. Meaningful for a well-formed instruction. -/
def encodeWith (m : OpMap) : Instr → Word
  | .cls => 0x00E0
  | .ret => m.ret
  | .sys nnn => wordNNN 0x0 nnn
  | .jp nnn => wordNNN 0x1 nnn
  | .call nnn => wordNNN m.call nnn
  | .seImm x nn => wordXNN m.seImm x nn
  | .sneImm x nn => wordXNN m.sneImm x nn
  | .seReg x y => wordXYN m.seReg x y 0x0
  | .sneReg x y => wordXYN m.sneReg x y 0x0
  | .ldImm x nn => wordXNN 0x6 x nn
  | .addImm x nn => wordXNN 0x7 x nn
  | .ldReg x y => wordXYN m.alu x y m.ldReg
  | .orReg x y => wordXYN m.alu x y m.orReg
  | .andReg x y => wordXYN m.alu x y m.andReg
  | .xorReg x y => wordXYN m.alu x y m.xorReg
  | .addReg x y => wordXYN m.alu x y m.addReg
  | .sub x y => wordXYN m.alu x y m.sub
  | .subn x y => wordXYN m.alu x y m.subn
  | .shr x => wordXYN m.alu x 0 m.shr
  | .shl x => wordXYN m.alu x 0 m.shl
  | .ldI nnn => wordNNN m.ldI nnn
  | .jpV0 nnn => wordNNN m.jpV0 nnn
  | .rnd x nn => wordXNN m.rnd x nn
  | .drw x y n => wordXYN m.drw x y n
  | .skp x => wordXNN m.keys x m.skp
  | .sknp x => wordXNN m.keys x m.sknp
  | .ldVxDt x => wordXNN 0xF x m.ldVxDt
  | .ldVxK x => wordXNN 0xF x 0x0A
  | .ldDtVx x => wordXNN 0xF x m.ldDtVx
  | .ldStVx x => wordXNN 0xF x m.ldStVx
  | .addI x => wordXNN 0xF x m.addI
  | .ldF x => wordXNN 0xF x m.ldF
  | .ldB x => wordXNN 0xF x m.ldB
  | .stRegs x => wordXNN 0xF x m.stRegs
  | .ldRegs x => wordXNN 0xF x m.ldRegs

/-- The word of an instruction, from the patterns of R88. -/
def encode (i : Instr) : Word := encodeWith opmap i

/-- The bytes of an instruction as memory holds them. -/
def encodeBytes (i : Instr) : List Byte := [(bytesOfWord (encode i)).1, (bytesOfWord (encode i)).2]

/-- The bits of a word that the decoded operation matches or uses: all but `n` of the compare skips and `y` of the shifts (R80, R81). -/
def usedBits : Instr → Word
  | .seReg _ _ => 0xFFF0#16
  | .sneReg _ _ => 0xFFF0#16
  | .shr _ => 0xFF0F#16
  | .shl _ => 0xFF0F#16
  | _ => 0xFFFF#16

end Sys2Proof
end

