-- ==== Sys2Proof/Machine/State.lean ====
section
/-!
DEFINITION. The complete state of the core (spec/10_state.md R20), plain data, and its reset value (R40).
-/

namespace Sys2Proof.Machine

/-- The fault kinds of spec/60_exceptions.md R210, each with the information it records. A fault is held in
`State.fault`: the core is then halted (R216). `exec` and `step` never answer `Host.Outcome.fault` (log 5). -/
inductive Fault where
  /-- The fetched word is illegal (R211). Raised by `step`. Safe: the document's own behaviour. -/
  | decodeFailure (w : Word)
  /-- The first address above 0xFFF of an access (R212). Raised by `step`'s fetch, `DRW`, `LD B,Vx`, `LD [I],Vx`,
  `LD Vx,[I]`. Safe: the spec's decision D2 stops where the reference is undefined. -/
  | memoryOutOfRange (addr : Nat)
  /-- A push with 16 entries in use (R213). Raised by `CALL`, `SYS`. Safe: decision D3, as above. -/
  | stackOverflow
  /-- A pop with no entry in use (R214). Raised by `RET`. Safe: decision D4, as above. -/
  | stackUnderflow
  /-- A key number above 15 (R215). Raised by `SKP`, `SKNP`. Safe: decision D5, as above. -/
  | keyIndexOutOfRange (k : Byte)
  deriving DecidableEq, Repr

/-- What the model declines to do. No instruction is refused. -/
inductive Refusal where
  /-- An instruction without a meaning. Raised by no arm of `exec`: every instruction has its meaning. Safe. -/
  | notModelled (mnemonic : String)
  /-- `Reset` with an image longer than 3584 bytes: there is no reset state for it (R251, D16). Raised by `load`. Safe. -/
  | imageTooLong (len : Nat)
  /-- A scheduler call outside its contract: a negative `dt`, a clock period, rate or factor that is not positive (R225,
  D22). Raised by `advance`, `setClockRate`, `multiplyClockRate`. Safe. -/
  | clockOutsideContract
  deriving DecidableEq, Repr

/-- Memory: the cells that differ from what an unlisted address reads as, addresses strictly rising (`Memory.wf`). -/
abbrev Memory := List Host.Cell

/-- The frame buffer: 32 rows of 64 cells (R27). -/
abbrev Frame := Vector (Vector Bool 64) 32

/-- A real number as plain data: a term over the rationals, `CLOCK_PERIOD` and the real numbers that the host hands in, by the
operations of the scheduler (spec/10_state.md R33). Its value is `RealTerm.value`; the `RealValues` of the run say which reals
the names stand for, so that a field of this type holds any real number, irrational ones included (log 8). -/
inductive RealTerm where
  | rat (q : Rat)
  /-- `CLOCK_PERIOD` -/
  | clockPeriod
  /-- Number `k` of the host's. -/
  | host (k : Nat)
  | add (a b : RealTerm)
  | sub (a b : RealTerm)
  | div (a b : RealTerm)
  deriving DecidableEq, Repr

/-- The state of R20, one field per entry of its table, and the model's own counter `free`. -/
structure State where
  /-- `mem` (R50) -/
  mem : Memory
  /-- `V[0]` to `V[15]` (R21) -/
  v : Vector Byte 16
  /-- `I` (R23) -/
  i : Word
  /-- `PC` (R24) -/
  pc : Word
  /-- `stack[0]` to `stack[15]` (R25) -/
  stack : Vector Word 16
  /-- `SP`, entries in use, 0 to 16 (R25) -/
  sp : Fin 17
  /-- `DT`, delay timer (R26) -/
  dt : Byte
  /-- `ST`, sound timer (R26) -/
  st : Byte
  /-- `fb` (R27) -/
  fb : Frame
  /-- `keys[0]` to `keys[15]`, true = pressed (R28) -/
  keys : Vector Bool 16
  /-- `latch`, the register awaiting a key press (R29) -/
  latch : Option Reg
  /-- `rng`: how many bytes of `Config.rand` have been drawn (R31; log 4) -/
  rng : Nat
  /-- `fault`, the fault record (R32) -/
  fault : Option Fault
  /-- `clock_period`, a real number of seconds (R33; log 8) -/
  clockPeriod : RealTerm
  /-- `cpu_countdown`, a real number of seconds (R33) -/
  cpuCountdown : RealTerm
  /-- `timer_countdown`, a real number of seconds (R33) -/
  timerCountdown : RealTerm
  /-- The model's own: how many bytes of `Config.freeByte` have been used (log 6, log 7) -/
  free : Nat
  deriving DecidableEq, Repr

/-- The state after `Reset` of the empty image (R40, R250): font and zeros in memory (what unlisted addresses read as),
`PC` at 0x200, every other field zeroed. -/
def State.reset : State where
  mem := []
  v := Vector.replicate 16 0
  i := 0
  pc := 0x200
  stack := Vector.replicate 16 0
  sp := 0
  dt := 0
  st := 0
  fb := Vector.replicate 32 (Vector.replicate 64 false)
  keys := Vector.replicate 16 false
  latch := none
  rng := 0
  fault := none
  clockPeriod := .clockPeriod
  cpuCountdown := .clockPeriod
  timerCountdown := .rat Config.timerPeriod
  free := 0

end Sys2Proof.Machine
end

