-- ==== Sys2Proof/Machine/Ops.lean ====
section
/-!
DEFINITION. The named operations over memory, registers, stack, frame buffer, timers and latch that every meaning is written
over; taking a fault; fetching a word; the run state.
-/

namespace Sys2Proof.Machine

/-- What a meaning answers. -/
abbrev StepResult := Host.Outcome State Fault Refusal

/-! ### Memory (spec/20_memory.md) -/

/-- `FONT`, the spec's default table of R51: sixteen glyphs of five bytes (log 2). -/
def font : List Byte :=
  [0xF0, 0x90, 0x90, 0x90, 0xF0] ++ [0x20, 0x60, 0x20, 0x20, 0x70] ++
  [0xF0, 0x10, 0xF0, 0x80, 0xF0] ++ [0xF0, 0x10, 0xF0, 0x10, 0xF0] ++
  [0x90, 0x90, 0xF0, 0x10, 0x10] ++ [0xF0, 0x80, 0xF0, 0x10, 0xF0] ++
  [0xF0, 0x80, 0xF0, 0x90, 0xF0] ++ [0xF0, 0x10, 0x20, 0x40, 0x40] ++
  [0xF0, 0x90, 0xF0, 0x90, 0xF0] ++ [0xF0, 0x90, 0xF0, 0x10, 0xF0] ++
  [0xF0, 0x90, 0xF0, 0x90, 0x90] ++ [0xE0, 0x90, 0xE0, 0x90, 0xE0] ++
  [0xF0, 0x80, 0x80, 0x80, 0xF0] ++ [0xE0, 0x90, 0x90, 0x90, 0xE0] ++
  [0xF0, 0x80, 0xF0, 0x80, 0xF0] ++ [0xF0, 0x80, 0xF0, 0x80, 0x80]

/-- The default value of each parameter (R4; log 1, log 2, log 3). -/
def Params.default : Params where
  opmap := opmap
  font := ⟨font.toArray, by decide⟩
  strictXY0 := strictXY0

/-- What an unlisted address reads as: the default font at 0x000 to 0x04F, 0 everywhere else (R40, R51). A reset with another
font lists the bytes that differ. -/
def Memory.initial (a : Nat) : Byte := font.getD a 0

/-- The listed byte of an address, if it is listed. -/
def Memory.lookup : Memory → Nat → Option Byte
  | [], _ => none
  | (a, b) :: rest, addr => if addr = a then some b else Memory.lookup rest addr

/-- The byte at an address of the space (R52). -/
def Memory.read (m : Memory) (addr : Nat) : Byte := (m.lookup addr).getD (Memory.initial addr)

/-- List an address with a byte, keeping the addresses rising. -/
def Memory.put : Memory → Nat → Byte → Memory
  | [], addr, v => [(addr, v)]
  | (a, b) :: rest, addr, v =>
    if addr < a then (addr, v) :: (a, b) :: rest
    else if addr = a then (addr, v) :: rest
    else (a, b) :: Memory.put rest addr v

/-- Take an address off the list. -/
def Memory.erase : Memory → Nat → Memory
  | [], _ => []
  | (a, b) :: rest, addr => if addr = a then Memory.erase rest addr else (a, b) :: Memory.erase rest addr

/-- `mem[addr] <- v` (R52); writing what an unlisted address reads as takes the address off the list. -/
def Memory.write (m : Memory) (addr : Nat) (v : Byte) : Memory :=
  if v = Memory.initial addr then m.erase addr else m.put addr v

/-- The form from address `lo` on: addresses rising, inside the space, and no byte that an unlisted address reads as. -/
def Memory.wfFrom : Nat → Memory → Bool
  | _, [] => true
  | lo, (a, b) :: rest =>
    decide (lo ≤ a) && decide (a < Config.memSize) && decide (b ≠ Memory.initial a) && Memory.wfFrom (a + 1) rest

/-- The one canonical form of a memory: equal contents are equal lists. -/
def Memory.wf (m : Memory) : Bool := Memory.wfFrom 0 m

/-- Write bytes at ascending addresses (R55). -/
def Memory.writeBytes (m : Memory) (base : Nat) : List Byte → Memory
  | [] => m
  | b :: bs => Memory.writeBytes (m.write base b) (base + 1) bs

/-- Read `n` bytes at ascending addresses (R55). -/
def Memory.readBytes (m : Memory) (base n : Nat) : List Byte := (List.range n).map fun k => m.read (base + k)

/-- `MemRead(addr, 1)` of R52 as a view: no byte exists above 0xFFF. -/
def State.memRead (s : State) (addr : Nat) : Option Byte :=
  if addr < Config.memSize then some (s.mem.read addr) else none

/-- The address a `MemoryOutOfRange` of an `n`-byte access at `base` reports: the first above 0xFFF, `max(base, 0x1000)`;
none when every byte exists (R52, R53, spec/60_exceptions.md R212). The addresses are naturals and never wrap. -/
def firstOutOfRange (base n : Nat) : Option Nat :=
  if n = 0 ∨ base + n ≤ Config.memSize then none else some (max base Config.memSize)

/-- How many bytes of an `n`-byte access at `base` exist. -/
def inRangeCount (base n : Nat) : Nat := min n (Config.memSize - base)

/-! ### Registers, program counter, call stack (spec/10_state.md R21 to R25) -/

/-- `V[r]` -/
def State.reg (s : State) (r : Reg) : Byte := s.v[r.val]

/-- `V[r] <- b` -/
def State.setReg (s : State) (r : Reg) (b : Byte) : State := { s with v := s.v.set r.val b r.isLt }

/-- All sixteen registers at once. -/
def State.setRegs (s : State) (f : Reg → Byte) : State := { s with v := Vector.ofFn f }

/-- `I <- w` -/
def State.setI (s : State) (w : Word) : State := { s with i := w }

/-- `PC <- target`; no target is checked (spec/40_control.md R100 (c)). -/
def State.jumpTo (s : State) (target : Word) : State := { s with pc := target }

/-- `PC <- (PC + 2) mod 65536` (R24). -/
def State.advancePc (s : State) : State := s.jumpTo (s.pc + 2)

/-- A skip adds a second 2 to `PC` when its condition holds (spec/40_control.md R105). -/
def State.skipIf (s : State) (c : Bool) : State := if c then s.advancePc else s

/-! ### Taking a fault (spec/60_exceptions.md R216)

There is no handler, no saved register and no mode: a fault is recorded and halts the core. There is no return from it
(R217); only `Reset` (Machine/Events.lean) clears the record. -/

/-- `raise <Fault>(info)` (spec/00_scope.md R6): record the fault; while it is recorded no event changes anything. -/
def State.raise (s : State) (f : Fault) : State := { s with fault := some f }

/-- A meaning that raises a fault takes it: the halted state is its next state (log 5). -/
def takeFault (f : Fault) (s : State) : StepResult := .next (s.raise f)

/-! ### Call stack -/

/-- `stack[SP] <- PC; SP <- SP + 1; PC <- target`, or `StackOverflow` when 16 entries are in use (R25, R213). -/
def callTo (target : Word) (s : State) : StepResult :=
  if h : s.sp.val < 16 then
    .next { s with stack := s.stack.set s.sp.val s.pc h, sp := ⟨s.sp.val + 1, by omega⟩, pc := target }
  else takeFault .stackOverflow s

/-- `SP <- SP - 1; PC <- stack[SP]`, or `StackUnderflow` when no entry is in use; the slot keeps its value (R25, R214). -/
def returnFromCall (s : State) : StepResult :=
  if h : 0 < s.sp.val then
    have hlt : s.sp.val - 1 < 16 := by omega
    .next { s with sp := ⟨s.sp.val - 1, by omega⟩, pc := s.stack[s.sp.val - 1] }
  else takeFault .stackUnderflow s

/-! ### Free bytes (R216; log 6) -/

/-- The next `n` free bytes of the run. -/
def State.freeBytes (s : State) (n : Nat) : List Byte := (List.range n).map fun k => Config.freeByte (s.free + k)

/-! ### Transfers of several bytes (R55, R156, R212) -/

/-- A store stopped out of range: the `n` bytes it may have written are free. -/
def State.scrambleMem (s : State) (base n : Nat) : State :=
  { s with mem := s.mem.writeBytes base (s.freeBytes n), free := s.free + n }

/-- A register load stopped out of range: the first `n` registers, which it may have written, are free. -/
def State.scrambleRegs (s : State) (n : Nat) : State :=
  { s.setRegs (fun k => if k.val < n then Config.freeByte (s.free + k.val) else s.reg k) with free := s.free + n }

/-- Store bytes from `base` on, or fault (`LD B,Vx`, `LD [I],Vx`). -/
def storeBytes (base : Nat) (bs : List Byte) (s : State) : StepResult :=
  match firstOutOfRange base bs.length with
  | none => .next { s with mem := s.mem.writeBytes base bs }
  | some a => takeFault (.memoryOutOfRange a) (s.scrambleMem base (inRangeCount base bs.length))

/-- Load `V[0]` to `V[x]` from `base` on, address `base + k` to register `k`, or fault (`LD Vx,[I]`). -/
def loadRegsFrom (base : Nat) (x : Reg) (s : State) : StepResult :=
  match firstOutOfRange base (x.val + 1) with
  | none => .next (s.setRegs fun k => if k ≤ x then s.mem.read (base + k.val) else s.reg k)
  | some a => takeFault (.memoryOutOfRange a) (s.scrambleRegs (inRangeCount base (x.val + 1)))

/-! ### Frame buffer and sprite engine (spec/43_display.md R170, R172) -/

/-- `get_pixel(px, py)`: coordinates of any size wrap (R170). -/
def Frame.getPixel (fb : Frame) (px py : Nat) : Bool :=
  have hx : px % 64 < 64 := Nat.mod_lt _ (by decide)
  have hy : py % 32 < 32 := Nat.mod_lt _ (by decide)
  fb[py % 32][px % 64]

/-- `flip_pixel(px, py)`: the new frame and whether the cell was set before (R170). -/
def Frame.flipPixel (fb : Frame) (px py : Nat) : Frame × Bool :=
  have hx : px % 64 < 64 := Nat.mod_lt _ (by decide)
  have hy : py % 32 < 32 := Nat.mod_lt _ (by decide)
  let old := fb[py % 32][px % 64]
  (fb.set (py % 32) (fb[py % 32].set (px % 64) (!old)), old)

/-- `clear()` (R170). -/
def Frame.cleared : Frame := Vector.replicate 32 (Vector.replicate 64 false)

/-- The eight bits of a sprite byte, most significant first. -/
def bitsMsbFirst (b : Byte) : List Bool := (List.range 8).map fun col => b.getLsbD (7 - col)

/-- Draw bits rightwards from `(px, py)`: a 1 flips its pixel, a 0 leaves it; the flag collects set-to-unset (R172). -/
def drawBits (acc : Frame × Bool) (px py : Nat) : List Bool → Frame × Bool
  | [] => acc
  | bit :: bits =>
    drawBits (if bit then ((acc.1.flipPixel px py).1, acc.2 || (acc.1.flipPixel px py).2) else acc) (px + 1) py bits

/-- Draw sprite bytes downwards from `(px, py)`, one row each (R172). -/
def drawRows (acc : Frame × Bool) (px py : Nat) : List Byte → Frame × Bool
  | [] => acc
  | b :: bs => drawRows (drawBits acc px py (bitsMsbFirst b)) px (py + 1) bs

/-- A draw stopped out of range: each pixel it may have flipped is free; no other pixel is touched (R216; log 6). -/
def State.scrambleFrame (s : State) (base n px py : Nat) : State :=
  let rows := List.zipWith (· &&& ·) (s.mem.readBytes base n) (s.freeBytes n)
  { s with fb := (drawRows (s.fb, false) px py rows).1, free := s.free + n }

/-- Draw the `n` bytes at `base` at `(px, py)` and write the collision flag last, or fault (R172). -/
def drawSprite (base n px py : Nat) (s : State) : StepResult :=
  match firstOutOfRange base n with
  | none =>
    let drawn := drawRows (s.fb, false) px py (s.mem.readBytes base n)
    .next (State.setReg { s with fb := drawn.1 } VF (if drawn.2 then 1 else 0))
  | some a => takeFault (.memoryOutOfRange a) (s.scrambleFrame base (inRangeCount base n) px py)

/-! ### Random source, timers, latch -/

/-- `draw()`: the byte the run's sequence has next (R31). -/
def State.nextRandom (s : State) : Byte := Config.rand s.rng

/-- The advance of `rng` that a draw makes (R31). -/
def State.advanceRng (s : State) : State := { s with rng := s.rng + 1 }

/-- `DT <- b` -/
def State.setDt (s : State) (b : Byte) : State := { s with dt := b }

/-- `ST <- b` -/
def State.setSt (s : State) (b : Byte) : State := { s with st := b }

/-- `latch <- Some(r)` (R29). -/
def State.awaitKey (s : State) (r : Reg) : State := { s with latch := some r }

/-! ### Run state and fetch -/

/-- The states of spec/60_exceptions.md R223. -/
inductive RunState where
  | running
  | awaitingKey (r : Reg)
  | halted (f : Fault)
  deriving DecidableEq, Repr

/-- Which of them the core is in; a recorded fault comes first (R218 (1), R220). -/
def State.runState (s : State) : RunState :=
  match s.fault, s.latch with
  | some f, _ => .halted f
  | none, some r => .awaitingKey r
  | none, none => .running

/-- The big-endian word at `[PC, PC+1]`, or the address that a fetch `MemoryOutOfRange` reports (spec/30_encoding.md R70, R212 (a)). -/
def State.fetch (s : State) : Except Nat Word :=
  match firstOutOfRange s.pc.toNat 2 with
  | none => .ok (wordOfBytes (s.mem.read s.pc.toNat) (s.mem.read (s.pc.toNat + 1)))
  | some a => .error a

/-- A word stored where the next step fetches, and whatever stands in the way of that fetch (a latch, a recorded fault, a
`PC` that no fetch can read) taken away (log 13). -/
def State.placeForFetch (s : State) (w : Word) : State :=
  let pc : Word := if s.pc.toNat + 2 ≤ Config.memSize then s.pc else BitVec.ofNat 16 Config.progBase
  { s with
    pc := pc
    latch := none
    fault := none
    mem := s.mem.writeBytes pc.toNat [(bytesOfWord w).1, (bytesOfWord w).2] }

end Sys2Proof.Machine
end

