-- ==== Sys2Proof/Machine/Flags.lean ====
section
/-!
DEFINITION. Every flag computation: `VF` after the five flag-writing ALU instructions (spec/10_state.md R22,
spec/41_alu.md R120, R127 to R131). The collision flag of `DRW` is collected by `drawRows` in Machine/Ops.lean.
-/

namespace Sys2Proof.Machine

/-- A flag as the byte `VF` holds: 1 or 0 (R22). -/
def flagByte (b : Bool) : Byte := if b then 1 else 0

/-- Carry: the sum as a natural number is above 255 (R127). -/
def carryOut (a b : Byte) : Bool := decide (255 < a.toNat + b.toNat)

/-- NOT borrow of `a - b` as natural numbers (R128, R130). -/
def notBorrow (a b : Byte) : Bool := !decide (a.toNat < b.toNat)

/-- The bit a right shift drops (R129). -/
def lowBit (a : Byte) : Bool := a.getLsbD 0

/-- The bit a left shift drops (R131). -/
def highBit (a : Byte) : Bool := a.getLsbD 7

/-- Result to `V[x]` first, flag to `VF` last (R120 (b), (c)): with `x = F` the flag is what stays. -/
def State.setResultAndFlag (s : State) (x : Reg) (result : Byte) (flag : Bool) : State :=
  (s.setReg x result).setReg VF (flagByte flag)

end Sys2Proof.Machine
end

