-- ==== Sys2Proof/Machine/Alu.lean ====
section
/-!
DEFINITION. Register loads and the ALU (spec/41_alu.md). Sources are read from the state before the instruction, the result
is written next, `VF` last (R120).
-/

namespace Sys2Proof.Machine

/-- LD Vx,nn (R121). -/
def execLdImm (x : Reg) (nn : Byte) (s : State) : StepResult := .next (s.setReg x nn)

/-- ADD Vx,nn: wraps, no flag (R122). -/
def execAddImm (x : Reg) (nn : Byte) (s : State) : StepResult := .next (s.setReg x (s.reg x + nn))

/-- LD Vx,Vy (R123). -/
def execLdReg (x y : Reg) (s : State) : StepResult := .next (s.setReg x (s.reg y))

/-- OR Vx,Vy: no flag (R124). -/
def execOrReg (x y : Reg) (s : State) : StepResult := .next (s.setReg x (s.reg x ||| s.reg y))

/-- AND Vx,Vy: no flag (R125). -/
def execAndReg (x y : Reg) (s : State) : StepResult := .next (s.setReg x (s.reg x &&& s.reg y))

/-- XOR Vx,Vy: no flag (R126). -/
def execXorReg (x y : Reg) (s : State) : StepResult := .next (s.setReg x (s.reg x ^^^ s.reg y))

/-- ADD Vx,Vy: `VF` = carry (R127). -/
def execAddReg (x y : Reg) (s : State) : StepResult :=
  .next (s.setResultAndFlag x (s.reg x + s.reg y) (carryOut (s.reg x) (s.reg y)))

/-- SUB Vx,Vy: `VF` = not borrow (R128). -/
def execSub (x y : Reg) (s : State) : StepResult :=
  .next (s.setResultAndFlag x (s.reg x - s.reg y) (notBorrow (s.reg x) (s.reg y)))

/-- SUBN Vx,Vy: `Vy - Vx`, `VF` = not borrow (R130). -/
def execSubn (x y : Reg) (s : State) : StepResult :=
  .next (s.setResultAndFlag x (s.reg y - s.reg x) (notBorrow (s.reg y) (s.reg x)))

/-- SHR Vx: logical, `VF` = old bit 0 (R129). -/
def execShr (x : Reg) (s : State) : StepResult :=
  .next (s.setResultAndFlag x (s.reg x >>> 1) (lowBit (s.reg x)))

/-- SHL Vx: logical, `VF` = old bit 7 (R131). -/
def execShl (x : Reg) (s : State) : StepResult :=
  .next (s.setResultAndFlag x (s.reg x <<< 1) (highBit (s.reg x)))

/-- RND Vx,nn: one byte is drawn, whatever the mask (R132). -/
def execRnd (x : Reg) (nn : Byte) (s : State) : StepResult :=
  .next (s.advanceRng.setReg x (s.nextRandom &&& nn))

end Sys2Proof.Machine
end

