-- ==== Sys2Proof/Machine/Operands.lean ====
section
/-!
DEFINITION. Every operand form: immediates (spec/30_encoding.md R73), the address register as a base (spec/20_memory.md R53),
the key number in a register (spec/44_keys_timers.md R190), the decimal digits and the glyph address of a register's value
(spec/42_index_memory.md R152, R153).
-/

namespace Sys2Proof.Machine

/-- `zext_16(nnn)` -/
def addrOf (nnn : Addr12) : Word := nnn.setWidth 16

/-- `zext_16(v)` of an 8-bit value. -/
def wordOf (b : Byte) : Word := b.setWidth 16

/-- The base address of a data access: `I`, as a natural number (R53). -/
def State.dataBase (s : State) : Nat := s.i.toNat

/-- `KEY_MASK` (spec/92_eei_decisions.md D5): false, a key number above 15 faults (log 10). -/
def keyMask : Bool := false

/-- The key a register's value names, for either value of `KEY_MASK`. -/
def keyNumberWith (mask : Bool) (v : Byte) : Option Key :=
  if h : v.toNat < 16 then some ⟨v.toNat, h⟩
  else if mask then some ⟨v.toNat % 16, Nat.mod_lt _ (by decide)⟩
  else none

/-- The key a register's value names; none when the value is above 15 (R190, R215). -/
def keyNumber (v : Byte) : Option Key := keyNumberWith keyMask v

/-- `keys[k]` (R28). -/
def State.keyDown (s : State) (k : Key) : Bool := s.keys[k.val]

/-- Hundreds, tens and ones of an unsigned byte, one digit a byte (R153). -/
def bcdDigits (v : Byte) : List Byte := [v / 100, v / 10 % 10, v % 10]

/-- `V * 5`: the address of a glyph; the value is not masked (R152). -/
def glyphAddress (v : Byte) : Word := wordOf v * 5

/-- `V[0]` to `V[x]` in ascending order (R154). -/
def State.regsUpTo (s : State) (x : Reg) : List Byte := s.v.toList.take (x.val + 1)

end Sys2Proof.Machine
end

