-- ==== Sys2Proof/Machine/Control.lean ====
section
/-!
DEFINITION. Control transfer (spec/40_control.md). `PC` already holds the address of the following instruction (R100 (a)).
-/

namespace Sys2Proof.Machine

/-- RET (R101). -/
def execRet (s : State) : StepResult := returnFromCall s

/-- SYS nnn: exactly as CALL (R102). -/
def execSys (nnn : Addr12) (s : State) : StepResult := callTo (addrOf nnn) s

/-- JP nnn (R103). -/
def execJp (nnn : Addr12) (s : State) : StepResult := .next (s.jumpTo (addrOf nnn))

/-- CALL nnn (R104). -/
def execCall (nnn : Addr12) (s : State) : StepResult := callTo (addrOf nnn) s

/-- SE Vx,nn (R105). -/
def execSeImm (x : Reg) (nn : Byte) (s : State) : StepResult := .next (s.skipIf (s.reg x == nn))

/-- SNE Vx,nn (R106). -/
def execSneImm (x : Reg) (nn : Byte) (s : State) : StepResult := .next (s.skipIf (s.reg x != nn))

/-- SE Vx,Vy (R107). -/
def execSeReg (x y : Reg) (s : State) : StepResult := .next (s.skipIf (s.reg x == s.reg y))

/-- SNE Vx,Vy (R108). -/
def execSneReg (x y : Reg) (s : State) : StepResult := .next (s.skipIf (s.reg x != s.reg y))

/-- JP V0,nnn: the sum is not reduced to 12 bits (R109). -/
def execJpV0 (nnn : Addr12) (s : State) : StepResult := .next (s.jumpTo (addrOf nnn + wordOf (s.reg 0)))

end Sys2Proof.Machine
end

