-- ==== Sys2Proof/Machine/Display.lean ====
section
/-!
DEFINITION. The display instructions (spec/43_display.md).
-/

namespace Sys2Proof.Machine

/-- CLS: every pixel unset, no flag (R171). -/
def execCls (s : State) : StepResult := .next { s with fb := Frame.cleared }

/-- DRW Vx,Vy,n: both coordinates are read before anything is written (R172). -/
def execDrw (x y : Reg) (n : Nibble) (s : State) : StepResult :=
  drawSprite s.dataBase n.toNat (s.reg x).toNat (s.reg y).toNat s

end Sys2Proof.Machine
end

