-- ==== Sys2Proof/Machine/IndexMemory.lean ====
section
/-!
DEFINITION. The address register and the memory instructions (spec/42_index_memory.md). `I` is never moved by an
instruction that uses it as a base (R156).
-/

namespace Sys2Proof.Machine

/-- LD I,nnn (R150). -/
def execLdI (nnn : Addr12) (s : State) : StepResult := .next (s.setI (addrOf nnn))

/-- ADD I,Vx: 16-bit wrap, no flag (R151). -/
def execAddI (x : Reg) (s : State) : StepResult := .next (s.setI (s.i + wordOf (s.reg x)))

/-- LD F,Vx (R152). -/
def execLdF (x : Reg) (s : State) : StepResult := .next (s.setI (glyphAddress (s.reg x)))

/-- LD B,Vx: three digits at `I`, `I + 1`, `I + 2` (R153). -/
def execLdB (x : Reg) (s : State) : StepResult := storeBytes s.dataBase (bcdDigits (s.reg x)) s

/-- LD [I],Vx: `V[0]` to `V[x]` from `I` on (R154). -/
def execStRegs (x : Reg) (s : State) : StepResult := storeBytes s.dataBase (s.regsUpTo x) s

/-- LD Vx,[I]: `V[0]` to `V[x]` from `I` on (R155). -/
def execLdRegs (x : Reg) (s : State) : StepResult := loadRegsFrom s.dataBase x s

end Sys2Proof.Machine
end

