-- ==== Sys2Proof/Machine/KeysTimers.lean ====
section
/-!
DEFINITION. The keypad and timer instructions (spec/44_keys_timers.md).
-/

namespace Sys2Proof.Machine

/-- SKP Vx: the key number is the value of `V[x]` (R190). -/
def execSkp (x : Reg) (s : State) : StepResult :=
  match keyNumber (s.reg x) with
  | some k => .next (s.skipIf (s.keyDown k))
  | none => takeFault (.keyIndexOutOfRange (s.reg x)) s

/-- SKNP Vx (R191). -/
def execSknp (x : Reg) (s : State) : StepResult :=
  match keyNumber (s.reg x) with
  | some k => .next (s.skipIf (!s.keyDown k))
  | none => takeFault (.keyIndexOutOfRange (s.reg x)) s

/-- LD Vx,DT (R192). -/
def execLdVxDt (x : Reg) (s : State) : StepResult := .next (s.setReg x s.dt)

/-- LD Vx,K: sets the latch and writes no register (R193). -/
def execLdVxK (x : Reg) (s : State) : StepResult := .next (s.awaitKey x)

/-- LD DT,Vx (R194). -/
def execLdDtVx (x : Reg) (s : State) : StepResult := .next (s.setDt (s.reg x))

/-- LD ST,Vx (R195). -/
def execLdStVx (x : Reg) (s : State) : StepResult := .next (s.setSt (s.reg x))

end Sys2Proof.Machine
end

