-- ==== Sys2Proof/Machine/Cycle.lean ====
section
/-!
DEFINITION. The fetch-decode-execute cycle of one `Step` event, for any value of the parameters of spec/00_scope.md R4.
-/

namespace Sys2Proof.Machine

/-- `Step` (spec/60_exceptions.md R220): nothing while halted or awaiting a key; else fetch, advance `PC`, decode, execute
(spec/30_encoding.md R70), with the fault priority of R218. -/
def stepWith (p : Params) (s : State) : StepResult :=
  match s.runState with
  | .halted _ => .next s
  | .awaitingKey _ => .next s
  | .running =>
    match s.fetch with
    | .error addr => takeFault (.memoryOutOfRange addr) s
    | .ok w =>
      match decodeWith p.strictXY0 w p.opmap with
      | some i => exec i s.advancePc
      | none => takeFault (.decodeFailure w) s.advancePc

end Sys2Proof.Machine
end

