-- ==== Sys2Proof/Machine/Step.lean ====
section
/-!
DEFINITION. One `Step` event (spec/60_exceptions.md R220), and an instruction placed where the next step fetches it.
-/

namespace Sys2Proof.Machine

/-- `Step` under the default parameters. -/
def step (s : State) : Host.Outcome State Fault Refusal := stepWith Params.default s

/-- `s` with the instruction that spec/opcode_table.json numbers `w` stored where `step` fetches next (log 13). -/
def State.withFetchWord (s : State) (nbits w : Nat) : State := s.placeForFetch (tableWord nbits w)

end Sys2Proof.Machine
end

