-- ==== Sys2Proof/Machine/Events.lean ====
section
/-!
DEFINITION. The events of the core other than `Step`, sequences of events, `Reset(ROM)` and the read-only views
(spec/10_state.md R36, R37; spec/60_exceptions.md R221 to R226; spec/70_reset_and_hazards.md R250).
-/

namespace Sys2Proof.Machine

/-- A timer's decrement: by 1 if nonzero (R221). -/
def timerDown (t : Byte) : Byte := if t = 0 then 0 else t - 1

/-- `Tick` (R221): both timers, each testing its own value; nothing while halted. -/
def tick (s : State) : State :=
  match s.fault with
  | some _ => s
  | none => { s with dt := timerDown s.dt, st := timerDown s.st }

/-- `keys[k] <- pressed` -/
def State.setKey (s : State) (k : Key) (pressed : Bool) : State := { s with keys := s.keys.set k.val pressed k.isLt }

/-- `V[r] <- k; latch <- None` when a register awaits a key (R222). -/
def State.resolveLatch (s : State) (k : Key) : State :=
  match s.latch with
  | some r => { s.setReg r (BitVec.ofNat 8 k.val) with latch := none }
  | none => s

/-- `KeyEvent(k, pressed)` (R222): a press resolves a latch, a release never does; nothing while halted. A key number above 15
is outside the contract and no value of `Key` (D19; log 11). -/
def keyEvent (k : Key) (pressed : Bool) (s : State) : State :=
  match s.fault with
  | some _ => s
  | none => if pressed then (s.setKey k pressed).resolveLatch k else s.setKey k pressed

/-- The events the host issues between resets (R36). -/
inductive Event where
  | step
  | tick
  | key (k : Key) (pressed : Bool)
  deriving DecidableEq, Repr

/-- One event, atomic (R57, R226). -/
def event (e : Event) (s : State) (p : Params := Params.default) : StepResult :=
  match e with
  | .step => stepWith p s
  | .tick => .next (tick s)
  | .key k pressed => .next (keyEvent k pressed s)

/-- A sequence of events in the order the host issues them: any sequence is admitted (R226). -/
def runEvents (es : List Event) (s : State) (p : Params := Params.default) : StepResult :=
  match es with
  | [] => .next s
  | e :: es =>
    match event e s p with
    | .next t => runEvents es t p
    | .fault f => .fault f
    | .refused r => .refused r

/-- The state `Reset(ROM)` makes: the reset state with `FONT` at 0x000 and byte `i` of the image at 0x200 + `i` (R250, R251).
The default font is what unlisted addresses read as, so that it lists nothing. -/
def State.resetWith (rom : List Byte) (p : Params := Params.default) : State :=
  { State.reset with mem := (State.reset.mem.writeBytes 0 p.font.toList).writeBytes Config.progBase rom }

/-- `Reset(ROM)` (R250). An image that does not fit has no reset state and is refused (R251, D16). -/
def load (rom : List Byte) (p : Params := Params.default) : StepResult :=
  if rom.length ≤ Config.romMax then .next (State.resetWith rom p) else .refused (.imageTooLong rom.length)

/-- `get_pixel(x, y)`, the host's view of the frame buffer (R37 (a)). -/
def getPixel (s : State) (px py : Nat) : Bool := s.fb.getPixel px py

/-- The inspection view (R37 (b)). -/
structure Inspection where
  registers : List Byte
  index : Word
  pc : Word
  delayTimer : Byte
  soundTimer : Byte
  stack : List Word
  depth : Nat
  deriving DecidableEq, Repr

/-- Read the inspection view: no side effect. -/
def inspect (s : State) : Inspection where
  registers := s.v.toList
  index := s.i
  pc := s.pc
  delayTimer := s.dt
  soundTimer := s.st
  stack := s.stack.toList
  depth := s.sp.val

end Sys2Proof.Machine
end

