-- ==== Sys2Proof/Machine/Time.lean ====
section
/-!
DEFINITION. The arithmetic of the scheduler's seconds (spec/60_exceptions.md R224, R225: exact real arithmetic, D18): what it
needs of a number, that of an ordered field with a floor, the real numbers among them, and that of the terms `State` holds.
-/

namespace Sys2Proof.Machine

/-- What the scheduler needs of its numbers. -/
structure TimeArith (K : Type) where
  add : K → K → K
  sub : K → K → K
  div : K → K → K
  one : K
  /-- 1/60 of a second, the timer period (R4 `TIMER_HZ`). -/
  sixtieth : K
  /-- `0 < a` -/
  isPos : K → Bool
  /-- `0 <= a` -/
  isNonneg : K → Bool
  /-- How often a period must be added to a countdown before it is positive: the iterations of a `while ... <= 0` loop. -/
  iterations : (countdown period : K) → Nat

section AnyField

variable {K : Type} [Field K] [LinearOrder K] [FloorRing K]

/-- `TimeArith.iterations` in an ordered field with a floor. -/
def iterationsDue (countdown period : K) : Nat :=
  if countdown ≤ 0 then ⌊-countdown / period⌋.toNat + 1 else 0

variable (K) in
/-- The arithmetic of an ordered field with a floor: for the real numbers, the spec's own. -/
def TimeArith.field : TimeArith K where
  add := (· + ·)
  sub := (· - ·)
  div := (· / ·)
  one := 1
  sixtieth := 1 / 60
  isPos a := decide (0 < a)
  isNonneg a := decide (0 ≤ a)
  iterations := iterationsDue

end AnyField

/-! ### Terms -/

/-- The real number a term stands for. -/
noncomputable def RealTerm.value (ρ : RealValues) : RealTerm → ℝ
  | .rat q => q
  | .clockPeriod => ρ.clockPeriod
  | .host k => ρ.host k
  | .add a b => a.value ρ + b.value ρ
  | .sub a b => a.value ρ - b.value ρ
  | .div a b => a.value ρ / b.value ρ

/-- The sum: a rational where both are. -/
def RealTerm.plus : RealTerm → RealTerm → RealTerm
  | .rat a, .rat b => .rat (a + b)
  | a, b => .add a b

/-- The difference: a rational where both are. -/
def RealTerm.minus : RealTerm → RealTerm → RealTerm
  | .rat a, .rat b => .rat (a - b)
  | a, b => .sub a b

/-- The quotient: a rational where both are. -/
def RealTerm.over : RealTerm → RealTerm → RealTerm
  | .rat a, .rat b => .rat (a / b)
  | a, b => .div a b

/-- `0 < a`: decided on the rational where `a` is one. -/
noncomputable def RealTerm.isPos (ρ : RealValues) : RealTerm → Bool
  | .rat a => decide (0 < a)
  | a => decide (0 < a.value ρ)

/-- `0 <= a` -/
noncomputable def RealTerm.isNonneg (ρ : RealValues) : RealTerm → Bool
  | .rat a => decide (0 ≤ a)
  | a => decide (0 ≤ a.value ρ)

/-- The iterations due, on the values. -/
noncomputable def RealTerm.iterations (ρ : RealValues) : RealTerm → RealTerm → Nat
  | .rat a, .rat b => iterationsDue a b
  | a, b => iterationsDue (a.value ρ) (b.value ρ)

/-- The arithmetic of the terms `State` holds: exact, and every comparison is that of the real values. -/
noncomputable def TimeArith.terms (ρ : RealValues) : TimeArith RealTerm where
  add := RealTerm.plus
  sub := RealTerm.minus
  div := RealTerm.over
  one := .rat 1
  sixtieth := .rat Config.timerPeriod
  isPos := RealTerm.isPos ρ
  isNonneg := RealTerm.isNonneg ρ
  iterations := RealTerm.iterations ρ

end Sys2Proof.Machine
end

