-- ==== Sys2Proof/Machine/Scheduler.lean ====
section
/-!
DEFINITION. The reference host scheduler (spec/60_exceptions.md R224, R225): host software by spec/00_scope.md R3 (e), modelled
because its three fields are in the state list of R20. It is written once over any `TimeArith`: on `Clock ℝ` with the arithmetic
of the real numbers, and on the clock of `State`, whose terms stand for real numbers (log 8).
-/

namespace Sys2Proof.Machine

/-- The scheduler fields of R33, in seconds. -/
structure Clock (K : Type) where
  /-- `clock_period` -/
  period : K
  /-- `cpu_countdown` -/
  cpu : K
  /-- `timer_countdown` -/
  timer : K
  deriving DecidableEq, Repr

/-- The same clock with each field carried over, as from the terms of `State` to the reals they stand for. -/
def Clock.map {K L : Type} (f : K → L) (c : Clock K) : Clock L := ⟨f c.period, f c.cpu, f c.timer⟩

/-- What `advance` hands its caller: the steps it executed, or the fault it met. -/
inductive AdvanceResult where
  | ok (executed : Nat)
  | err (f : Fault)
  deriving DecidableEq, Repr

section AnyArith

variable {K : Type} (A : TimeArith K)

/-- The clock at reset: one full period on each countdown (D12). -/
def Clock.reset (period : K) : Clock K := ⟨period, period, A.sixtieth⟩

/-- `cpu_countdown` and `timer_countdown` less the elapsed time. -/
def Clock.elapse (c : Clock K) (dt : K) : Clock K := { c with cpu := A.sub c.cpu dt, timer := A.sub c.timer dt }

/-- `cpu_countdown <- cpu_countdown + clock_period` -/
def Clock.rearmCpu (c : Clock K) : Clock K := { c with cpu := A.add c.cpu c.period }

/-- `timer_countdown <- timer_countdown + 1/60` -/
def Clock.rearmTimer (c : Clock K) : Clock K := { c with timer := A.add c.timer A.sixtieth }

/-- The instruction loop of R224, `fuel` iterations at most, with the count of steps executed so far. A step while a register
awaits a key is not made and not counted. -/
def instructionLoop (p : Params) :
    Nat → Nat → Clock K → State → Host.Outcome (State × Clock K × AdvanceResult) Fault Refusal
  | 0, executed, c, s => .next (s, c, .ok executed)
  | fuel + 1, executed, c, s =>
    if A.isPos c.cpu then .next (s, c, .ok executed)
    else
      match s.latch with
      | some _ => instructionLoop p fuel executed (c.rearmCpu A) s
      | none =>
        match stepWith p s with
        | .next t =>
          match t.fault with
          | some f => .next (t, c.rearmCpu A, .err f)
          | none => instructionLoop p fuel (executed + 1) (c.rearmCpu A) t
        | .fault f => .fault f
        | .refused r => .refused r

/-- The timer loop of R224, `fuel` iterations at most. -/
def timerLoop : Nat → Clock K → State → State × Clock K
  | 0, c, s => (s, c)
  | fuel + 1, c, s => if A.isPos c.timer then (s, c) else timerLoop fuel (c.rearmTimer A) (tick s)

/-- `advance(dt)` on a clock (R224): all due steps, then all due ticks; returns at once when a step faults (D13). A negative
`dt` or a clock period that is not positive is outside the contract (log 12). -/
def advanceClock (p : Params) (dt : K) (c : Clock K) (s : State) :
    Host.Outcome (State × Clock K × AdvanceResult) Fault Refusal :=
  if A.isNonneg dt && A.isPos c.period then
    match instructionLoop A p (A.iterations (c.elapse A dt).cpu c.period) 0 (c.elapse A dt) s with
    | .next (t, c, .ok executed) =>
      let ticked := timerLoop A (A.iterations c.timer A.sixtieth) c t
      .next (ticked.1, ticked.2, .ok executed)
    | .next (t, c, .err f) => .next (t, c, .err f)
    | .fault f => .fault f
    | .refused r => .refused r
  else .refused .clockOutsideContract

/-- `set_clock_rate(hz)` on a clock: `cpu_countdown` is not touched (R225). -/
def Clock.setRate (hz : K) (c : Clock K) : Host.Outcome (Clock K) Fault Refusal :=
  if A.isPos hz then .next { c with period := A.div A.one hz } else .refused .clockOutsideContract

/-- `multiply_clock_rate(factor)` on a clock: the rate is multiplied, so the period is divided (R225). -/
def Clock.multiplyRate (factor : K) (c : Clock K) : Host.Outcome (Clock K) Fault Refusal :=
  if A.isPos factor then .next { c with period := A.div c.period factor } else .refused .clockOutsideContract

end AnyArith

/-! ### The scheduler on the state -/

/-- The scheduler fields of the state. -/
def State.clock (s : State) : Clock RealTerm := ⟨s.clockPeriod, s.cpuCountdown, s.timerCountdown⟩

/-- The real numbers they stand for. -/
noncomputable def State.realClock (ρ : RealValues) (s : State) : Clock ℝ := s.clock.map (RealTerm.value ρ)

/-- The state with another clock. -/
def State.withClock (s : State) (c : Clock RealTerm) : State :=
  { s with clockPeriod := c.period, cpuCountdown := c.cpu, timerCountdown := c.timer }

/-- `advance(dt)` (R224), `dt` any real number. -/
noncomputable def advance (ρ : RealValues) (dt : RealTerm) (s : State) (p : Params := Params.default) :
    Host.Outcome (State × AdvanceResult) Fault Refusal :=
  match advanceClock (.terms ρ) p dt s.clock s with
  | .next (t, c, result) => .next (t.withClock c, result)
  | .fault f => .fault f
  | .refused r => .refused r

/-- What a clock-rate call answers, put back into the state. -/
def State.putClock (s : State) : Host.Outcome (Clock RealTerm) Fault Refusal → StepResult
  | .next c => .next (s.withClock c)
  | .fault f => .fault f
  | .refused r => .refused r

/-- `set_clock_rate(hz)` (R225), `hz` any real number. -/
noncomputable def setClockRate (ρ : RealValues) (hz : RealTerm) (s : State) : StepResult :=
  s.putClock (s.clock.setRate (.terms ρ) hz)

/-- `multiply_clock_rate(factor)` (R225), `factor` any real number. -/
noncomputable def multiplyClockRate (ρ : RealValues) (factor : RealTerm) (s : State) : StepResult :=
  s.putClock (s.clock.multiplyRate (.terms ρ) factor)

end Sys2Proof.Machine
end

