-- ==== Sys2Proof/Safety.lean ====
section
/-!
DEFINITION. What counts as a safe run, the invariant of the machine, and the terms the statements use: what an instruction may
write, when it faults, which cells a sprite covers.
-/

namespace Sys2Proof.Machine

/-! ### Safe runs -/

/-- No fault is recorded: a faulted state is never a successful end of a run (spec/60_exceptions.md R216). -/
abbrev State.Safe (s : State) : Prop := s.fault = none

/-- Neither halted nor awaiting a key (R223). -/
abbrev State.Running (s : State) : Prop := s.fault = none ∧ s.latch = none

/-- The program has finished at address `a` (spec/70_reset_and_hazards.md R253): running, `PC = a`, and `JP a` stands at `a`. -/
def State.FinishedAt (s : State) (a : Addr12) : Prop :=
  s.Running ∧ s.pc = addrOf a ∧
    s.memRead a.toNat = some (bytesOfWord (wordNNN 0x1 a)).1 ∧
    s.memRead (a.toNat + 1) = some (bytesOfWord (wordNNN 0x1 a)).2

/-! ### The invariant -/

/-- What every event keeps: memory in its canonical form; the three states of R223 exclude each other; `PC` and the return
addresses never reach where `PC + 2` would wrap (spec/10_state.md R24). -/
structure State.Inv (s : State) : Prop where
  /-- The memory is canonical and lies inside 0x000 to 0xFFF (spec/20_memory.md R50). -/
  mem_wf : s.mem.wf = true
  /-- A halted core awaits no key (R223). -/
  one_state : s.fault = none ∨ s.latch = none
  /-- The largest value any rule can give `PC` is 0x10FE (R24). -/
  pc_le : s.pc.toNat ≤ 0x10FE
  /-- A pushed value is the address after an instruction that was fetched, at most 0x1000. -/
  stack_le : ∀ k : Fin 16, s.stack[k.val].toNat ≤ 0x1000

/-! ### What an instruction may write (spec/00_scope.md R7) -/

/-- A set of places: registers, memory addresses, call-stack slots, and each other field of the state. A field set to false, or a
place outside a set, must keep its value. -/
structure Footprint where
  regs : Reg → Bool := fun _ => false
  mem : Nat → Bool := fun _ => false
  stack : Nat → Bool := fun _ => false
  index : Bool := false
  pc : Bool := false
  sp : Bool := false
  dt : Bool := false
  st : Bool := false
  fb : Bool := false
  latch : Bool := false
  rng : Bool := false

/-- `t` equals `s` outside the footprint. No footprint holds the fault record, which only a fault writes,
nor the keys or the scheduler's fields, which no instruction writes (spec/10_state.md R28, R33). -/
structure Footprint.Covers (f : Footprint) (s t : State) : Prop where
  regs : ∀ r, f.regs r = false → t.reg r = s.reg r
  mem : ∀ a, f.mem a = false → t.memRead a = s.memRead a
  stack : ∀ k : Fin 16, f.stack k.val = false → t.stack[k.val] = s.stack[k.val]
  index : f.index = false → t.i = s.i
  pc : f.pc = false → t.pc = s.pc
  sp : f.sp = false → t.sp = s.sp
  dt : f.dt = false → t.dt = s.dt
  st : f.st = false → t.st = s.st
  fb : f.fb = false → t.fb = s.fb
  latch : f.latch = false → t.latch = s.latch
  rng : f.rng = false → t.rng = s.rng
  fault : t.fault = s.fault
  free : t.free = s.free
  keys : t.keys = s.keys
  clockPeriod : t.clockPeriod = s.clockPeriod
  cpuCountdown : t.cpuCountdown = s.cpuCountdown
  timerCountdown : t.timerCountdown = s.timerCountdown

/-- What each instruction may write where it does not fault, from the rule of each. The addresses stored to are computed from `I`
as the meanings compute them (`State.dataBase`). `PC` is that of the control transfers, the skips among them: the advance that
every instruction shares is the fetch's (R7). -/
def footprint (s : State) : Instr → Footprint
  | .cls => { fb := true }
  | .ret => { pc := true, sp := true }
  | .sys _ => { pc := true, sp := true, stack := fun k => k == s.sp.val }
  | .jp _ => { pc := true }
  | .call _ => { pc := true, sp := true, stack := fun k => k == s.sp.val }
  | .seImm _ _ => { pc := true }
  | .sneImm _ _ => { pc := true }
  | .seReg _ _ => { pc := true }
  | .sneReg _ _ => { pc := true }
  | .ldImm x _ => { regs := fun r => r == x }
  | .addImm x _ => { regs := fun r => r == x }
  | .ldReg x _ => { regs := fun r => r == x }
  | .orReg x _ => { regs := fun r => r == x }
  | .andReg x _ => { regs := fun r => r == x }
  | .xorReg x _ => { regs := fun r => r == x }
  | .addReg x _ => { regs := fun r => r == x || r == VF }
  | .sub x _ => { regs := fun r => r == x || r == VF }
  | .subn x _ => { regs := fun r => r == x || r == VF }
  | .shr x => { regs := fun r => r == x || r == VF }
  | .shl x => { regs := fun r => r == x || r == VF }
  | .ldI _ => { index := true }
  | .jpV0 _ => { pc := true }
  | .rnd x _ => { regs := fun r => r == x, rng := true }
  | .drw _ _ _ => { regs := fun r => r == VF, fb := true }
  | .skp _ => { pc := true }
  | .sknp _ => { pc := true }
  | .ldVxDt x => { regs := fun r => r == x }
  | .ldVxK _ => { latch := true }
  | .ldDtVx _ => { dt := true }
  | .ldStVx _ => { st := true }
  | .addI _ => { index := true }
  | .ldF _ => { index := true }
  | .ldB _ => { mem := fun a => decide (s.dataBase ≤ a ∧ a < s.dataBase + 3) }
  | .stRegs x => { mem := fun a => decide (s.dataBase ≤ a ∧ a ≤ s.dataBase + x.val) }
  | .ldRegs x => { regs := fun r => decide (r ≤ x) }

/-- Only register `x` may differ: every other register and every other field, `PC` among them, is as before. -/
def State.OnlyRegWritten (s t : State) (x : Reg) : Prop :=
  t = { s with v := t.v } ∧ ∀ r, r ≠ x → t.reg r = s.reg r

/-- Only registers `x` and `VF` may differ. -/
def State.OnlyRegAndFlagWritten (s t : State) (x : Reg) : Prop :=
  t = { s with v := t.v } ∧ ∀ r, r ≠ x → r ≠ VF → t.reg r = s.reg r

/-! ### When an instruction faults (spec/60_exceptions.md R210 to R215) -/

/-- The fault an `n`-byte access at `I` raises: its last address is above 0xFFF; the first such address is reported (R212). -/
def rangeFault (s : State) (n : Nat) : Option Fault :=
  if 0 < n ∧ 0xFFF < s.i.toNat + n - 1 then some (.memoryOutOfRange (max s.i.toNat 0x1000)) else none

/-- The table of R210 read for one instruction in one state. -/
def faultOf (s : State) : Instr → Option Fault
  | .ret => if s.sp.val = 0 then some .stackUnderflow else none
  | .sys _ => if s.sp.val = 16 then some .stackOverflow else none
  | .call _ => if s.sp.val = 16 then some .stackOverflow else none
  | .drw _ _ n => rangeFault s n.toNat
  | .ldB _ => rangeFault s 3
  | .stRegs x => rangeFault s (x.val + 1)
  | .ldRegs x => rangeFault s (x.val + 1)
  | .skp x => if 15 < (s.reg x).toNat then some (.keyIndexOutOfRange (s.reg x)) else none
  | .sknp x => if 15 < (s.reg x).toNat then some (.keyIndexOutOfRange (s.reg x)) else none
  | .cls => none
  | .jp _ => none
  | .seImm _ _ => none
  | .sneImm _ _ => none
  | .seReg _ _ => none
  | .sneReg _ _ => none
  | .ldImm _ _ => none
  | .addImm _ _ => none
  | .ldReg _ _ => none
  | .orReg _ _ => none
  | .andReg _ _ => none
  | .xorReg _ _ => none
  | .addReg _ _ => none
  | .sub _ _ => none
  | .subn _ _ => none
  | .shr _ => none
  | .shl _ => none
  | .ldI _ => none
  | .jpV0 _ => none
  | .rnd _ _ => none
  | .ldVxDt _ => none
  | .ldVxK _ => none
  | .ldDtVx _ => none
  | .ldStVx _ => none
  | .addI _ => none
  | .ldF _ => none

/-- An illegal word (spec/30_encoding.md R82), for either value of `STRICT_XY0` (R80). -/
def IllegalWord (strict : Bool) (w : Word) : Prop :=
  (opOf w = 0x8 ∧ nOf w ∈ ([0x8, 0x9, 0xA, 0xB, 0xC, 0xD, 0xF] : List Nibble)) ∨
  (opOf w = 0xE ∧ nnOf w ∉ ([0x9E, 0xA1] : List Byte)) ∨
  (opOf w = 0xF ∧ nnOf w ∉ ([0x07, 0x0A, 0x15, 0x18, 0x1E, 0x29, 0x33, 0x55, 0x65] : List Byte)) ∨
  (strict = true ∧ (opOf w = 0x5 ∨ opOf w = 0x9) ∧ nOf w ≠ 0x0)

/-! ### Sprites (spec/43_display.md R172) -/

/-- The wrapped mask of a draw: cell `(c, r)` lies under a 1 bit of the `n`-byte sprite at `base` drawn at `(px, py)`. -/
def SpriteCovers (m : Memory) (base n px py c r : Nat) : Prop :=
  ∃ row col, row < n ∧ col < 8 ∧ (m.read (base + row)).getLsbD (7 - col) = true ∧
    (px + col) % 64 = c % 64 ∧ (py + row) % 32 = r % 32

end Sys2Proof.Machine
end

