-- ==== Sys2Proof/Certificates/Slice0/Obligations.lean ====
section
/-!
DEFINITION. The statements for the provers, from the numbered rules of spec/. Where a statement speaks of `exec`, the state is
the one after the fetch: `PC` already holds the address of the following instruction (spec/40_control.md R100 (a)). A clause
`t = { s with v := t.v }` says that every field but the registers is as before. The numeric encodings other than those of
spec/30_encoding.md R89 are the spec's default OPMAP (log 1): statements that rest on them are marked 'derived'.
-/

open Sys2Proof Sys2Proof.Machine

/-! ### The step -/

/-- R70, R211, R212 (a): a running step fetches the big-endian word at `[PC, PC+1]`, advances `PC` by 2, decodes and executes it;
a word that fails to decode leaves `PC` advanced; a byte that does not exist faults with `PC` not advanced. That such a byte
faults, and its reported address, are decision D2; that a fault is recorded in the state, `DecodeFailure` among them, is
decision D13 (log 14), and that the faulted state is a next state is the model's reading (log 5). -/
def Obligations.StepRunsDecodedInstruction : Prop :=
  ∀ s : State, s.fault = none → s.latch = none →
    (∀ (hi lo : Byte) (w : Word), s.memRead s.pc.toNat = some hi → s.memRead (s.pc.toNat + 1) = some lo →
      w.toNat = hi.toNat * 256 + lo.toNat →
      (∀ i, decode w = .ok i → step s = exec i { s with pc := s.pc + 2 }) ∧
      (∀ e, decode w = .error e → step s = .next { s with pc := s.pc + 2, fault := some (.decodeFailure w) })) ∧
    (s.memRead s.pc.toNat = none → step s = .next { s with fault := some (.memoryOutOfRange s.pc.toNat) }) ∧
    (∀ hi, s.memRead s.pc.toNat = some hi → s.memRead (s.pc.toNat + 1) = none →
      step s = .next { s with fault := some (.memoryOutOfRange (s.pc.toNat + 1)) })

/-- R223, with the Halted state that is the spec's decision D13: a halted core changes nothing at any event. -/
def Obligations.HaltedCoreIgnoresEvents : Prop :=
  ∀ (s : State) (f : Fault) (e : Event), s.fault = some f → event e s = .next s

/-- An instruction placed by `withFetchWord` is what the very next step executes, from every state (log 13). -/
def Obligations.PlacedWordRunsNext : Prop :=
  ∀ (s : State) (nbits w : Nat) (i : Instr), decodeTableWord nbits w = some i →
    step (s.withFetchWord nbits w) =
      exec i { s.withFetchWord nbits w with pc := (s.withFetchWord nbits w).pc + 2 }

/-! ### Reset and the invariant -/

/-- R40, R250, R251: `Reset(ROM)`. The zero fill (D16), the fault record (D13) and the countdowns (D12) are the spec's
decisions, the font bytes its default table (log 2), the clock period the argument `CLOCK_PERIOD` (log 9); a longer image is refused
(D16). -/
def Obligations.ResetLoadsImageAndZeroesTheRest : Prop :=
  ∀ rom : List Byte,
    (3584 < rom.length → load rom = .refused (.imageTooLong rom.length)) ∧
    (rom.length ≤ 3584 → ∃ t, load rom = .next t ∧
      (∀ a, a < 80 → t.memRead a = some (font.getD a 0)) ∧
      (∀ a, 80 ≤ a → a < 0x200 → t.memRead a = some 0) ∧
      (∀ k, k < rom.length → t.memRead (0x200 + k) = some (rom.getD k 0)) ∧
      (∀ a, 0x200 + rom.length ≤ a → a < 0x1000 → t.memRead a = some 0) ∧
      (∀ a, 0x1000 ≤ a → t.memRead a = none) ∧
      (∀ r, t.reg r = 0) ∧ t.i = 0 ∧ t.pc = 0x200 ∧
      t.sp = 0 ∧ (∀ k : Fin 16, t.stack[k.val] = 0) ∧ t.dt = 0 ∧ t.st = 0 ∧
      (∀ c r, getPixel t c r = false) ∧ (∀ k, t.keyDown k = false) ∧
      t.latch = none ∧ t.rng = 0 ∧ t.fault = none ∧
      ∀ ρ : RealValues, t.clockPeriod.value ρ = ρ.clockPeriod ∧ 0 < t.clockPeriod.value ρ ∧
        t.cpuCountdown.value ρ = t.clockPeriod.value ρ ∧ t.timerCountdown.value ρ = 1 / 60)

/-- The reset state meets the invariant. -/
def Obligations.ResetMeetsTheInvariant : Prop := State.reset.Inv

/-- Every step keeps the invariant: canonical memory inside 0x000 to 0xFFF, never halted and awaiting a key at once, `PC` at
most 0x10FE (R24), return addresses at most 0x1000. -/
def Obligations.EveryStepKeepsTheInvariant : Prop :=
  ∀ s t : State, s.Inv → step s = .next t → t.Inv

/-- From every loadable image, every sequence of `Step`, `Tick` and `KeyEvent` (R226) runs to a state that meets the
invariant; no event is refused. -/
def Obligations.EveryEventSequenceRunsAndKeepsTheInvariant : Prop :=
  ∀ (rom : List Byte) (es : List Event), rom.length ≤ 3584 →
    ∃ s t, load rom = .next s ∧ runEvents es s = .next t ∧ t.Inv

/-- Every event keeps the invariant and none is refused (R226), for every value of the parameters; so has every loadable image's
reset state the invariant. -/
def Obligations.EveryEventKeepsTheInvariant : Prop :=
  (∀ (p : Params) (e : Event) (s : State), s.Inv → ∃ t, event e s p = .next t ∧ t.Inv) ∧
  (∀ (p : Params) (rom : List Byte), rom.length ≤ 3584 → ∃ t, load rom p = .next t ∧ t.Inv)

/-! ### Parameters (spec/00_scope.md R4) -/

/-- R4, R40 (D9, D16): `FONT` is an argument of `Reset`: whatever its 80 bytes, they stand at 0x000 to 0x04F, the image from 0x200,
zeros elsewhere; the rest of the reset state does not depend on it, and the default font is the table of R51 (log 2). -/
def Obligations.ResetTakesAnyFont : Prop :=
  (∀ (p : Params) (rom : List Byte), rom.length ≤ 3584 → ∃ t, load rom p = .next t ∧
    (∀ k : Fin 80, t.memRead k.val = some p.font[k.val]) ∧
    (∀ a, 80 ≤ a → a < 0x200 → t.memRead a = some 0) ∧
    (∀ k, k < rom.length → t.memRead (0x200 + k) = some (rom.getD k 0)) ∧
    (∀ a, 0x200 + rom.length ≤ a → a < 0x1000 → t.memRead a = some 0) ∧
    t = { State.reset with mem := t.mem }) ∧
  (∀ k : Fin 80, Params.default.font[k.val] = font.getD k.val 0)

/-- R4, R74, R80 (D6, D10): `OPMAP` and `STRICT_XY0` are arguments of a step: whatever they are, a running step with both bytes in
memory executes what the word decodes to under them, or records the decode failure; `step` is the case of the defaults. -/
def Obligations.StepTakesAnyOpmap : Prop :=
  (∀ (p : Params) (s : State), s.fault = none → s.latch = none → s.pc.toNat ≤ 0xFFE →
    ∀ w : Word, s.memRead s.pc.toNat = some (bytesOfWord w).1 → s.memRead (s.pc.toNat + 1) = some (bytesOfWord w).2 →
      (∀ i, decodeWith p.strictXY0 w p.opmap = some i → stepWith p s = exec i { s with pc := s.pc + 2 }) ∧
      (decodeWith p.strictXY0 w p.opmap = none →
        stepWith p s = .next { s with pc := s.pc + 2, fault := some (.decodeFailure w) })) ∧
  (∀ s : State, step s = stepWith Params.default s)

/-- R4, R72, R74 (D10): under every `OPMAP` that gives no label twice, and either value of `STRICT_XY0`, decoding the word of an
instruction gives it back; `SYS` can express neither `CLS`'s word nor `RET`'s. -/
def Obligations.EveryOpmapDecodesWhatItEncodes : Prop :=
  opmap.wf = true ∧
  ∀ (m : OpMap) (strict : Bool) (i : Instr), m.wf = true →
    (∀ nnn, i = .sys nnn → wordNNN 0x0 nnn ≠ 0x00E0 ∧ wordNNN 0x0 nnn ≠ m.ret) →
    decodeWith strict (encodeWith m i) m = some i

/-! ### Encoding -/

/-- Decoding the word of a well-formed instruction gives the instruction back, operands and all; so does decoding its bytes at
the head of any byte list. -/
def Obligations.DecodeOfEncodeIsTheInstruction : Prop :=
  ∀ i : Instr, i.wf = true →
    decode (encode i) = .ok i ∧ ∀ rest, decodeBytes (encodeBytes i ++ rest) = .ok (i, rest)

/-- A word that decodes gives a well-formed instruction whose word is the same but for the ignored bits (R80, R81). -/
def Obligations.EncodeOfDecodeIsTheWord : Prop :=
  ∀ (w : Word) (i : Instr), decode w = .ok i → i.wf = true ∧ encode i = w &&& usedBits i

/-- R82: the illegal words are exactly those listed, and decoding one carries the raw word; under `STRICT_XY0 = true` (D6)
the compare skips with a nonzero low nibble join them. -/
def Obligations.IllegalWordsAreExactlyThoseListed : Prop :=
  (∀ w : Word, decode w = .error (.decodeFailure w) ↔ IllegalWord false w) ∧
  (∀ (strict : Bool) (w : Word), decodeWith strict w = none ↔ IllegalWord strict w)

/-- Words written out from R74 to R82 and the vectors of V-ENC decode as those say. -/
def Obligations.WordsOfTheSpecDecode : Prop :=
  decode 0x00E0 = .ok .cls ∧ decode 0x00EE = .ok .ret ∧ decode 0x00E1 = .ok (.sys 0x0E1) ∧
  decode 0x1205 = .ok (.jp 0x205) ∧ decode 0x5AB7 = .ok (.seReg 0xA 0xB) ∧ decode 0x6A3C = .ok (.ldImm 0xA 0x3C) ∧
  decode 0x8AB6 = .ok (.shr 0xA) ∧ decode 0x8AB7 = .ok (.subn 0xA 0xB) ∧ decode 0xABCD = .ok (.ldI 0xBCD) ∧
  decode 0xD125 = .ok (.drw 1 2 5) ∧ decode 0xE1A1 = .ok (.sknp 1) ∧ decode 0xF80A = .ok (.ldVxK 8) ∧
  decode 0xF155 = .ok (.stRegs 1) ∧ decode 0x8AB8 = .error (.decodeFailure 0x8AB8) ∧
  decode 0xFF00 = .error (.decodeFailure 0xFF00)

/-! ### What every instruction leaves alone, and where it faults -/

/-- R7: an instruction that does not fault changes only what its rule writes; every register, byte of memory, stack slot and
other field outside its footprint, `PC` among them, keeps its value. Of a faulted core no more may be claimed than R216
says. -/
def Obligations.EveryInstructionStaysInItsFootprint : Prop :=
  ∀ (i : Instr) (s t : State), faultOf s i = none → exec i s = .next t → (footprint s i).Covers s t

/-- R210 to R215 (decisions D2 to D5): every instruction answers a next state, and it has recorded exactly the fault the table
lists for it in that state, or none. -/
def Obligations.InstructionsFaultExactlyWhereListed : Prop :=
  ∀ (i : Instr) (s : State), ∃ t, exec i s = .next t ∧ t.fault = (faultOf s i).or s.fault

/-- R216 (decisions D3 to D5): a stack or key fault changes nothing but the fault record. -/
def Obligations.StackAndKeyFaultsChangeOnlyTheRecord : Prop :=
  ∀ (s : State) (nnn : Addr12) (x : Reg),
    (s.sp.val = 16 → exec (.call nnn) s = .next { s with fault := some .stackOverflow }) ∧
    (s.sp.val = 16 → exec (.sys nnn) s = .next { s with fault := some .stackOverflow }) ∧
    (s.sp.val = 0 → exec .ret s = .next { s with fault := some .stackUnderflow }) ∧
    (15 < (s.reg x).toNat → exec (.skp x) s = .next { s with fault := some (.keyIndexOutOfRange (s.reg x)) }) ∧
    (15 < (s.reg x).toNat → exec (.sknp x) s = .next { s with fault := some (.keyIndexOutOfRange (s.reg x)) })

/-- R212 (decision D2): a transfer or draw that reaches above 0xFFF reports the first such address. That `PC` and `I` of the
stopped core are as they were is the model's own (log 6; for `I` beside R156): R216 gives neither for this case. What was
transferred is unspecified (R216), so nothing is said of it. -/
def Obligations.OutOfRangeTransfersReportTheFirstAddress : Prop :=
  ∀ (s : State) (x y : Reg) (n : Nibble),
    (0 < n.toNat → 0xFFF < s.i.toNat + n.toNat - 1 → ∃ t, exec (.drw x y n) s = .next t ∧
      t.fault = some (.memoryOutOfRange (max s.i.toNat 0x1000)) ∧ t.pc = s.pc ∧ t.i = s.i) ∧
    (0xFFF < s.i.toNat + 2 → ∃ t, exec (.ldB x) s = .next t ∧
      t.fault = some (.memoryOutOfRange (max s.i.toNat 0x1000)) ∧ t.pc = s.pc ∧ t.i = s.i) ∧
    (0xFFF < s.i.toNat + x.val → ∃ t, exec (.stRegs x) s = .next t ∧
      t.fault = some (.memoryOutOfRange (max s.i.toNat 0x1000)) ∧ t.pc = s.pc ∧ t.i = s.i) ∧
    (0xFFF < s.i.toNat + x.val → ∃ t, exec (.ldRegs x) s = .next t ∧
      t.fault = some (.memoryOutOfRange (max s.i.toNat 0x1000)) ∧ t.pc = s.pc ∧ t.i = s.i)

/-! ### Control transfer -/

/-- R101: with an entry in use, RET pops it into `PC`; the slots keep their values. -/
def Obligations.ReturnPopsTheCallStack : Prop :=
  ∀ (s : State) (k : Fin 16), s.sp.val = k.val + 1 →
    ∃ t, exec .ret s = .next t ∧ t.sp.val = k.val ∧ t.pc = s.stack[k.val] ∧ t = { s with sp := t.sp, pc := t.pc }

/-- R102, R104: with a free entry, CALL and SYS push `PC` and jump; both end in the same state. -/
def Obligations.CallAndSysPushAndJump : Prop :=
  ∀ (s : State) (nnn : Addr12) (k : Fin 16), s.sp.val = k.val →
    ∃ t, exec (.call nnn) s = .next t ∧ exec (.sys nnn) s = .next t ∧
      t.stack[k.val] = s.pc ∧ (∀ j : Fin 16, j ≠ k → t.stack[j.val] = s.stack[j.val]) ∧
      t.sp.val = k.val + 1 ∧ t.pc.toNat = nnn.toNat ∧ t = { s with stack := t.stack, sp := t.sp, pc := t.pc }

/-- R104's property: a return from a subroutine that leaves the call stack as it found it restores `PC` to the instruction
after the call and the stack pointer to its value before the call. -/
def Obligations.CallThenReturnRestores : Prop :=
  ∀ (s : State) (nnn : Addr12), s.sp.val < 16 →
    ∃ t, exec (.call nnn) s = .next t ∧
      ∀ u : State, u.sp = t.sp → u.stack = t.stack → ∃ v, exec .ret u = .next v ∧ v.pc = s.pc ∧ v.sp = s.sp

/-- R103, its encoding (confirmed by the document) included: JP sets `PC` to `nnn` and changes nothing else. -/
def Obligations.JumpSetsPc : Prop :=
  ∀ (nnn : Addr12) (s : State), decode (wordNNN 0x1 nnn) = .ok (.jp nnn) ∧
    ∃ t, exec (.jp nnn) s = .next t ∧ t.pc.toNat = nnn.toNat ∧ t = { s with pc := t.pc }

/-- R105, R106: the immediate skips add 2 to `PC` exactly on their condition and change nothing else. -/
def Obligations.ImmediateSkipsFollowTheirCondition : Prop :=
  ∀ (x : Reg) (nn : Byte) (s : State),
    (s.reg x = nn → exec (.seImm x nn) s = .next { s with pc := s.pc + 2 } ∧ exec (.sneImm x nn) s = .next s) ∧
    (s.reg x ≠ nn → exec (.seImm x nn) s = .next s ∧ exec (.sneImm x nn) s = .next { s with pc := s.pc + 2 })

/-- R107, R108: the register skips, likewise. -/
def Obligations.RegisterSkipsFollowTheirCondition : Prop :=
  ∀ (x y : Reg) (s : State),
    (s.reg x = s.reg y → exec (.seReg x y) s = .next { s with pc := s.pc + 2 } ∧ exec (.sneReg x y) s = .next s) ∧
    (s.reg x ≠ s.reg y → exec (.seReg x y) s = .next s ∧ exec (.sneReg x y) s = .next { s with pc := s.pc + 2 })

/-- R109: the indexed jump adds all of `V[0]` to `nnn`; the sum is not reduced to 12 bits. -/
def Obligations.IndexedJumpAddsVZero : Prop :=
  ∀ (nnn : Addr12) (s : State),
    ∃ t, exec (.jpV0 nnn) s = .next t ∧ t.pc.toNat = nnn.toNat + (s.reg 0).toNat ∧ t = { s with pc := t.pc }

/-- R253: a finished program stays where it is, every field unchanged by every further step. -/
def Obligations.FinishedProgramStays : Prop :=
  ∀ (s : State) (a : Addr12), s.FinishedAt a → step s = .next s

/-! ### Registers and ALU -/

/-- R121, its encoding (confirmed by the document) included. -/
def Obligations.LoadImmediateWritesItsRegister : Prop :=
  ∀ (x : Reg) (nn : Byte) (s : State), decode (wordXNN 0x6 x nn) = .ok (.ldImm x nn) ∧
    ∃ t, exec (.ldImm x nn) s = .next t ∧ t.reg x = nn ∧ s.OnlyRegWritten t x

/-- R122, its encoding (confirmed by the document) included: the sum wraps and no flag is written. -/
def Obligations.AddImmediateWrapsWithoutFlag : Prop :=
  ∀ (x : Reg) (nn : Byte) (s : State), decode (wordXNN 0x7 x nn) = .ok (.addImm x nn) ∧
    ∃ t, exec (.addImm x nn) s = .next t ∧ (t.reg x).toNat = ((s.reg x).toNat + nn.toNat) % 256 ∧ s.OnlyRegWritten t x

/-- R123 to R126: copy and logic write `V[x]` and no flag. -/
def Obligations.CopyAndLogicWriteNoFlag : Prop :=
  ∀ (x y : Reg) (s : State),
    (∃ t, exec (.ldReg x y) s = .next t ∧ t.reg x = s.reg y ∧ s.OnlyRegWritten t x) ∧
    (∃ t, exec (.orReg x y) s = .next t ∧ t.reg x = s.reg x ||| s.reg y ∧ s.OnlyRegWritten t x) ∧
    (∃ t, exec (.andReg x y) s = .next t ∧ t.reg x = s.reg x &&& s.reg y ∧ s.OnlyRegWritten t x) ∧
    (∃ t, exec (.xorReg x y) s = .next t ∧ t.reg x = s.reg x ^^^ s.reg y ∧ s.OnlyRegWritten t x)

/-- R127: the wrapped sum in `V[x]`, the carry in `VF`, written last, so that with `x = F` the carry stays. -/
def Obligations.AddRegistersSetsCarry : Prop :=
  ∀ (x y : Reg) (s : State), ∃ t, exec (.addReg x y) s = .next t ∧
    (x ≠ VF → (t.reg x).toNat = ((s.reg x).toNat + (s.reg y).toNat) % 256) ∧
    (t.reg VF).toNat = (if (s.reg x).toNat + (s.reg y).toNat > 255 then 1 else 0) ∧ s.OnlyRegAndFlagWritten t x

/-- R128, R130: the wrapped difference in `V[x]`, not-borrow in `VF`, written last. -/
def Obligations.SubtractSetsNotBorrow : Prop :=
  ∀ (x y : Reg) (s : State),
    (∃ t, exec (.sub x y) s = .next t ∧
      (x ≠ VF → (t.reg x).toNat = ((s.reg x).toNat + 256 - (s.reg y).toNat) % 256) ∧
      (t.reg VF).toNat = (if (s.reg x).toNat < (s.reg y).toNat then 0 else 1) ∧ s.OnlyRegAndFlagWritten t x) ∧
    (∃ t, exec (.subn x y) s = .next t ∧
      (x ≠ VF → (t.reg x).toNat = ((s.reg y).toNat + 256 - (s.reg x).toNat) % 256) ∧
      (t.reg VF).toNat = (if (s.reg y).toNat < (s.reg x).toNat then 0 else 1) ∧ s.OnlyRegAndFlagWritten t x)

/-- R129, R131: shifts by one, logical, the bit shifted out in `VF`; that the flag is written last is the spec's decision D7. -/
def Obligations.ShiftsMoveTheBitShiftedOutToTheFlag : Prop :=
  ∀ (x : Reg) (s : State),
    (∃ t, exec (.shr x) s = .next t ∧ (x ≠ VF → (t.reg x).toNat = (s.reg x).toNat / 2) ∧
      (t.reg VF).toNat = (s.reg x).toNat % 2 ∧ s.OnlyRegAndFlagWritten t x) ∧
    (∃ t, exec (.shl x) s = .next t ∧ (x ≠ VF → (t.reg x).toNat = (s.reg x).toNat * 2 % 256) ∧
      (t.reg VF).toNat = (s.reg x).toNat / 128 ∧ s.OnlyRegAndFlagWritten t x)

/-- R132, with the free value of D8 (log 4): the drawn byte masked with `nn`, whatever byte is drawn; exactly one byte is drawn. -/
def Obligations.RandomByteIsMasked : Prop :=
  ∀ (x : Reg) (nn : Byte) (s : State),
    ∃ t, exec (.rnd x nn) s = .next t ∧ t.reg x = Config.rand s.rng &&& nn ∧ t.reg x &&& ~~~nn = 0 ∧
      t.rng = s.rng + 1 ∧ (∀ r, r ≠ x → t.reg r = s.reg r) ∧ t = { s with v := t.v, rng := t.rng }

/-! ### Address register and memory -/

/-- R150, R151: `I` takes the zero-extended address, or the 16-bit wrapped sum, and nothing else changes. That ADD I,Vx writes no
flag is decision D15 (log 15). -/
def Obligations.IndexLoadAndAdd : Prop :=
  ∀ (nnn : Addr12) (x : Reg) (s : State),
    (∃ t, exec (.ldI nnn) s = .next t ∧ t.i.toNat = nnn.toNat ∧ t = { s with i := t.i }) ∧
    (∃ t, exec (.addI x) s = .next t ∧ t.i.toNat = (s.i.toNat + (s.reg x).toNat) % 65536 ∧ t = { s with i := t.i })

/-- R152 (the formula taken literally, D15): `I` is five times all of `V[x]`. -/
def Obligations.GlyphAddressIsFiveTimesTheRegister : Prop :=
  ∀ (x : Reg) (s : State),
    ∃ t, exec (.ldF x) s = .next t ∧ t.i.toNat = (s.reg x).toNat * 5 ∧ t = { s with i := t.i }

/-- R153, R156: with all three bytes inside memory, the decimal digits are stored at `I`, `I + 1`, `I + 2`, and nothing else
changes. -/
def Obligations.BcdDigitsAreStored : Prop :=
  ∀ (x : Reg) (s : State), s.i.toNat ≤ 0xFFD → ∃ t, exec (.ldB x) s = .next t ∧
    (∃ h d o : Byte, t.memRead s.i.toNat = some h ∧ t.memRead (s.i.toNat + 1) = some d ∧
      t.memRead (s.i.toNat + 2) = some o ∧ h.toNat = (s.reg x).toNat / 100 ∧
      d.toNat = (s.reg x).toNat / 10 % 10 ∧ o.toNat = (s.reg x).toNat % 10) ∧
    (∀ a, a < s.i.toNat ∨ s.i.toNat + 2 < a → t.memRead a = s.memRead a) ∧ t = { s with mem := t.mem }

/-- R154, R156: with every byte inside memory, `V[0]` to `V[x]` are stored from `I` on, and nothing else changes. -/
def Obligations.RegisterDumpStoresUpToX : Prop :=
  ∀ (x : Reg) (s : State), s.i.toNat + x.val ≤ 0xFFF → ∃ t, exec (.stRegs x) s = .next t ∧
    (∀ k : Reg, k ≤ x → t.memRead (s.i.toNat + k.val) = some (s.reg k)) ∧
    (∀ a, a < s.i.toNat ∨ s.i.toNat + x.val < a → t.memRead a = s.memRead a) ∧ t = { s with mem := t.mem }

/-- R155, R156: with every byte inside memory, `V[0]` to `V[x]` are loaded from `I` on, and nothing else changes. -/
def Obligations.RegisterLoadReadsUpToX : Prop :=
  ∀ (x : Reg) (s : State), s.i.toNat + x.val ≤ 0xFFF → ∃ t, exec (.ldRegs x) s = .next t ∧
    (∀ k : Reg, k ≤ x → s.memRead (s.i.toNat + k.val) = some (t.reg k)) ∧
    (∀ k : Reg, x < k → t.reg k = s.reg k) ∧ t = { s with v := t.v }

/-- R154 and R155 together: registers dumped and loaded back from the same `I` are as they were. -/
def Obligations.DumpThenLoadRestoresRegisters : Prop :=
  ∀ (x : Reg) (s : State), s.i.toNat + x.val ≤ 0xFFF → ∃ t, exec (.stRegs x) s = .next t ∧
    ∀ u : State, u.mem = t.mem → u.i = s.i →
      ∃ v, exec (.ldRegs x) u = .next v ∧ ∀ k : Reg, k ≤ x → v.reg k = s.reg k

/-- R62: the two bytes a register dump stores at `I` are the instruction that the very next fetch from there executes. -/
def Obligations.StoredBytesAreFetchedNext : Prop :=
  ∀ (x : Reg) (s : State), 1 ≤ x.val → s.i.toNat + x.val ≤ 0xFFF → ∃ t, exec (.stRegs x) s = .next t ∧
    ∀ u : State, u.mem = t.mem → u.pc = s.i → u.fault = none → u.latch = none →
      ∀ i, decode (wordOfBytes (s.reg 0) (s.reg 1)) = .ok i → step u = exec i { u with pc := u.pc + 2 }

/-- R60 (a plain function from address to byte): two memories in the canonical form that read alike are the same data. -/
def Obligations.CanonicalMemoriesThatReadAlikeAreEqual : Prop :=
  ∀ m m' : Memory, m.wf = true → m'.wf = true → (∀ a, m.read a = m'.read a) → m = m'

/-! ### Display -/

/-- R171, its encoding (confirmed by the document) included: every pixel unset, no flag, nothing else. -/
def Obligations.ClearScreenUnsetsEveryPixel : Prop :=
  ∀ s : State, decode 0x00E0 = .ok .cls ∧
    ∃ t, exec .cls s = .next t ∧ (∀ c r, getPixel t c r = false) ∧ t = { s with fb := t.fb }

/-- R170: coordinates wrap; `flip_pixel` toggles its cell, reports the old value and touches no other cell; `clear` unsets
every cell. -/
def Obligations.FrameBufferOperations : Prop :=
  ∀ (fb : Frame) (px py c r : Nat),
    fb.getPixel (px + 64) py = fb.getPixel px py ∧ fb.getPixel px (py + 32) = fb.getPixel px py ∧
    (fb.flipPixel px py).2 = fb.getPixel px py ∧
    (fb.flipPixel px py).1.getPixel px py = !fb.getPixel px py ∧
    (c % 64 ≠ px % 64 ∨ r % 32 ≠ py % 32 → (fb.flipPixel px py).1.getPixel c r = fb.getPixel c r) ∧
    Frame.cleared.getPixel px py = false

/-- R172 (3), which the spec derives: with every sprite byte inside memory, a draw is an exclusive or of the frame with the
wrapped sprite mask, and `VF` is 1 exactly when the mask met a set pixel; `n = 0` draws nothing and clears `VF`. Nothing else
changes. -/
def Obligations.DrawIsExclusiveOrWithTheMask : Prop :=
  ∀ (x y : Reg) (n : Nibble) (s : State), n.toNat = 0 ∨ s.i.toNat + n.toNat ≤ 0x1000 →
    ∃ t, exec (.drw x y n) s = .next t ∧
      (∀ c r, SpriteCovers s.mem s.i.toNat n.toNat (s.reg x).toNat (s.reg y).toNat c r →
        getPixel t c r = !getPixel s c r) ∧
      (∀ c r, ¬ SpriteCovers s.mem s.i.toNat n.toNat (s.reg x).toNat (s.reg y).toNat c r →
        getPixel t c r = getPixel s c r) ∧
      ((∃ c r, SpriteCovers s.mem s.i.toNat n.toNat (s.reg x).toNat (s.reg y).toNat c r ∧ getPixel s c r = true) →
        t.reg VF = 1) ∧
      ((∀ c r, SpriteCovers s.mem s.i.toNat n.toNat (s.reg x).toNat (s.reg y).toNat c r → getPixel s c r = false) →
        t.reg VF = 0) ∧
      (∀ r, r ≠ VF → t.reg r = s.reg r) ∧ t = { s with v := t.v, fb := t.fb }

/-- R173, all three: (a) the same sprite drawn again at the same place restores the picture and reports a collision exactly when
the first draw turned a pixel on; (b) coordinates wrap; (c) a collision is a set pixel that becomes unset, nothing else. The
second draw starts from any state with the first one's frame and the same sprite and place, so that `VF` as a coordinate
is not shut out. -/
def Obligations.DrawingTwiceRestoresThePicture : Prop :=
  (∀ (x y : Reg) (n : Nibble) (s : State), n.toNat = 0 ∨ s.i.toNat + n.toNat ≤ 0x1000 →
    ∃ t, exec (.drw x y n) s = .next t ∧
      (t.reg VF = 1 ↔ ∃ c r, getPixel s c r = true ∧ getPixel t c r = false) ∧
      (t.reg VF = 0 ↔ ∀ c r, getPixel s c r = true → getPixel t c r = true) ∧
      ∀ s' : State, s'.fb = t.fb → s'.mem = s.mem → s'.i = s.i → s'.reg x = s.reg x → s'.reg y = s.reg y →
        ∃ u, exec (.drw x y n) s' = .next u ∧ (∀ c r, getPixel u c r = getPixel s c r) ∧
          (u.reg VF = 1 ↔ ∃ c r, getPixel s c r = false ∧ getPixel t c r = true)) ∧
  (∀ (s : State) (px py : Nat),
    getPixel s (px + 64) py = getPixel s px py ∧ getPixel s px (py + 32) = getPixel s px py)

/-! ### Keys, timers, events -/

/-- R190, R191 for a register that holds a key number (a larger value faults, StackAndKeyFaultsChangeOnlyTheRecord). -/
def Obligations.KeySkipsTestTheKeyLevel : Prop :=
  ∀ (x : Reg) (k : Key) (s : State), (s.reg x).toNat = k.val →
    (s.keyDown k = true → exec (.skp x) s = .next { s with pc := s.pc + 2 } ∧ exec (.sknp x) s = .next s) ∧
    (s.keyDown k = false → exec (.skp x) s = .next s ∧ exec (.sknp x) s = .next { s with pc := s.pc + 2 })

/-- R192, R194, R195: the timer moves. -/
def Obligations.TimerMovesCopyAByte : Prop :=
  ∀ (x : Reg) (s : State),
    (∃ t, exec (.ldVxDt x) s = .next t ∧ t.reg x = s.dt ∧ s.OnlyRegWritten t x) ∧
    exec (.ldDtVx x) s = .next { s with dt := s.reg x } ∧
    exec (.ldStVx x) s = .next { s with st := s.reg x }

/-- R193, its encoding (confirmed by the document) included: LD Vx,K only sets the latch, whatever keys are held; then a step
does nothing, ticks count and leave the latch, a release leaves it, and a press writes the key and clears it without moving
`PC`. -/
def Obligations.KeyWaitLatchesUntilAPress : Prop :=
  ∀ (x : Reg) (k : Key) (s : State), s.fault = none → decode (wordXNN 0xF x 0x0A) = .ok (.ldVxK x) ∧
    ∃ t, exec (.ldVxK x) s = .next t ∧ t = { s with latch := some x } ∧ step t = .next t ∧
      (tick t).latch = some x ∧ (tick t).dt.toNat = s.dt.toNat - 1 ∧ (tick t).st.toNat = s.st.toNat - 1 ∧
      (keyEvent k false t).latch = some x ∧
      (keyEvent k true t).latch = none ∧ ((keyEvent k true t).reg x).toNat = k.val ∧ (keyEvent k true t).pc = s.pc

/-- R221: each timer goes down by 1 if nonzero, and a tick touches nothing else. That a tick changes nothing while a fault is
recorded is decision D13 (log 14). -/
def Obligations.TickCountsBothTimersDown : Prop :=
  ∀ s : State,
    (s.fault = none → (tick s).dt.toNat = s.dt.toNat - 1 ∧ (tick s).st.toNat = s.st.toNat - 1 ∧
      tick s = { s with dt := (tick s).dt, st := (tick s).st }) ∧
    (s.fault ≠ none → tick s = s)

/-- R222: a key event sets its key flag; a press resolves a latch at once, a release never does; nothing while a fault is
recorded. -/
def Obligations.KeyEventSetsTheKeyAndResolvesTheLatch : Prop :=
  ∀ (s : State) (k : Key) (pressed : Bool),
    (s.fault ≠ none → keyEvent k pressed s = s) ∧
    (s.fault = none →
      (keyEvent k pressed s).keyDown k = pressed ∧
      (∀ j, j ≠ k → (keyEvent k pressed s).keyDown j = s.keyDown j) ∧
      (∀ r, pressed = true → s.latch = some r →
        ((keyEvent k pressed s).reg r).toNat = k.val ∧ (keyEvent k pressed s).latch = none ∧
        (∀ r', r' ≠ r → (keyEvent k pressed s).reg r' = s.reg r')) ∧
      (pressed = false ∨ s.latch = none →
        (keyEvent k pressed s).latch = s.latch ∧ (keyEvent k pressed s).v = s.v) ∧
      keyEvent k pressed s =
        { s with keys := (keyEvent k pressed s).keys, v := (keyEvent k pressed s).v, latch := (keyEvent k pressed s).latch })

/-- R29: the latch is set only by LD Vx,K, when a step executes it; while it is set a step fetches and executes nothing; of the
events a press alone clears it, writing the pressed key into the awaiting register; a reset leaves it clear. -/
def Obligations.LatchIsSetByKeyWaitAndClearedByAPress : Prop :=
  (∀ (i : Instr) (s t : State) (x : Reg), s.latch = none → exec i s = .next t → (t.latch = some x ↔ i = .ldVxK x)) ∧
  (∀ (e : Event) (s t : State) (x : Reg), s.latch = none → event e s = .next t → t.latch = some x →
    e = .step ∧ ∃ w, s.fetch = .ok w ∧ decode w = .ok (.ldVxK x)) ∧
  (∀ (s : State) (r : Reg), s.latch = some r → step s = .next s) ∧
  (∀ (e : Event) (s t : State) (r : Reg), s.fault = none → s.latch = some r → event e s = .next t →
    (t.latch = some r ∧ t.v = s.v) ∨ (∃ k, e = .key k true ∧ t.latch = none ∧ (t.reg r).toNat = k.val)) ∧
  (∀ (k : Key) (s : State) (r : Reg), s.fault = none → s.latch = some r →
    ∃ t, event (.key k true) s = .next t ∧ t.latch = none ∧ (t.reg r).toNat = k.val) ∧
  (∀ (rom : List Byte) (t : State), load rom = .next t → t.latch = none)

/-- R220: a step never changes the keys or the scheduler's fields, and changes a timer only where the fetched instruction is
the one that sets it. -/
def Obligations.StepLeavesKeysTimersAndScheduler : Prop :=
  ∀ s t : State, step s = .next t →
    t.keys = s.keys ∧ t.clockPeriod = s.clockPeriod ∧ t.cpuCountdown = s.cpuCountdown ∧
    t.timerCountdown = s.timerCountdown ∧
    (t.dt ≠ s.dt → ∃ w x, s.fetch = .ok w ∧ decode w = .ok (.ldDtVx x) ∧ t.dt = s.reg x) ∧
    (t.st ≠ s.st → ∃ w x, s.fetch = .ok w ∧ decode w = .ok (.ldStVx x) ∧ t.st = s.reg x)

/-- R219 (decision D17): ticks and key events are no interrupts: they never move `PC`, the call stack, `I`, memory, the picture
or the random source, and they raise no fault. -/
def Obligations.TicksAndKeyEventsAreNoInterrupts : Prop :=
  ∀ (e : Event) (s t : State), e ≠ .step → event e s = .next t →
    t.pc = s.pc ∧ t.sp = s.sp ∧ t.stack = s.stack ∧ t.i = s.i ∧ t.mem = s.mem ∧ t.fb = s.fb ∧ t.rng = s.rng ∧
    t.fault = s.fault

/-! ### The host scheduler

`advance` runs on the state's own clock, whose terms stand for real numbers that `RealValues` gives; `advanceClock` on a clock
over any ordered field with a floor, the real numbers of the spec among them (log 8). -/

/-- R224, whole, on a clock over any ordered field with a floor: a call that answers Ok has made as many steps as it reports, then
the due ticks. The instruction countdown has gone down by `dt` and up by `m` periods, `m` the steps made (more if a register
awaits a key: those iterations are not counted); the timer countdown has gone down by `dt` and up by `k`
sixtieths, `k` the ticks, each of which takes 1 from a timer that is not 0; both loops stop as soon as their countdown is
positive. Nothing but the timers differs from the state after the steps. -/
def Obligations.AdvanceIsTheStepsDueThenTheTicksDue : Prop :=
  ∀ (K : Type) [Field K] [LinearOrder K] [IsStrictOrderedRing K] [FloorRing K]
    (dt : K) (c c' : Clock K) (s t : State) (executed : Nat),
    s.fault = none → advanceClock (.field K) Params.default dt c s = .next (t, c', .ok executed) →
    ∃ (u : State) (m k : Nat),
      Host.Core.run core executed s = .next u ∧ t = { u with dt := t.dt, st := t.st } ∧
      t.dt.toNat = u.dt.toNat - k ∧ t.st.toNat = u.st.toNat - k ∧
      c' = { period := c.period, cpu := c.cpu - dt + m * c.period, timer := c.timer - dt + k * (1 / 60) } ∧
      executed ≤ m ∧ (t.latch = none → executed = m) ∧
      0 < c'.cpu ∧ (m = 0 ∨ c'.cpu ≤ c.period) ∧ 0 < c'.timer ∧ (k = 0 ∨ c'.timer ≤ 1 / 60)

/-- R224 (d), with the reset countdown of decision D12: a call with `dt` equal to `n` clock periods, begun with one full period
on the countdown, answers. Where `n` steps in a row meet no fault and no key wait, it reports `n` and has made exactly those
steps: but for the timers and the two countdowns the state is the one they end in. A fault is handed on (D13). -/
def Obligations.AdvanceExecutesExactlyTheStepsDue : Prop :=
  ∀ (ρ : RealValues) (s : State) (dt : RealTerm) (n : Nat),
    0 < s.clockPeriod.value ρ → s.cpuCountdown.value ρ = s.clockPeriod.value ρ → dt.value ρ = n * s.clockPeriod.value ρ →
    ∃ t result, advance ρ dt s = .next (t, result) ∧
      (∀ u, Host.Core.run core n s = .next u → u.fault = none → u.latch = none →
        result = .ok n ∧ t = { u with
          dt := t.dt, st := t.st, cpuCountdown := t.cpuCountdown, timerCountdown := t.timerCountdown }) ∧
      (∀ executed, result = .ok executed → t.latch = none → executed = n) ∧
      (∀ f, result = .err f → t.fault = some f)

/-- R224: while a register awaits a key, `advance` consumes time and executes no step: the instruction countdown goes down by
`dt` and up by whole clock periods, the timer countdown down by `dt` and up by a sixtieth for each tick, until each is
positive; each tick takes 1 from a timer that is not 0; nothing else changes. -/
def Obligations.AdvanceWhileAwaitingKeyExecutesNothing : Prop :=
  ∀ (ρ : RealValues) (s : State) (dt : RealTerm) (r : Reg),
    0 ≤ dt.value ρ → 0 < s.clockPeriod.value ρ → s.fault = none → s.latch = some r →
    ∃ (t : State) (m k : Nat), advance ρ dt s = .next (t, .ok 0) ∧
      t.cpuCountdown.value ρ = s.cpuCountdown.value ρ - dt.value ρ + m * s.clockPeriod.value ρ ∧
      0 < t.cpuCountdown.value ρ ∧ (m = 0 ∨ t.cpuCountdown.value ρ ≤ s.clockPeriod.value ρ) ∧
      t.timerCountdown.value ρ = s.timerCountdown.value ρ - dt.value ρ + k * (1 / 60) ∧
      0 < t.timerCountdown.value ρ ∧ (k = 0 ∨ t.timerCountdown.value ρ ≤ 1 / 60) ∧
      t.dt.toNat = s.dt.toNat - k ∧ t.st.toNat = s.st.toNat - k ∧
      t = { s with dt := t.dt, st := t.st, cpuCountdown := t.cpuCountdown, timerCountdown := t.timerCountdown }

/-- R224: both loops run until their countdown is positive. -/
def Obligations.AdvanceLeavesBothCountdownsPositive : Prop :=
  ∀ (ρ : RealValues) (s t : State) (dt : RealTerm) (executed : Nat),
    advance ρ dt s = .next (t, .ok executed) → 0 < t.cpuCountdown.value ρ ∧ 0 < t.timerCountdown.value ρ

/-- R20, R33, R224, R225 (decision D18): the clock that `State` holds is a real clock. Each call of the scheduler on a state
answers, a refusal too, what it answers on the real numbers that the state's fields stand for; every real clock, with every real
elapsed time, is that of some terms, whatever else the state holds. On a clock of rationals the scheduler is exact too: it answers
as on the same rationals among the reals. -/
def Obligations.StateAndRationalClocksAgreeWithTheRealOne : Prop :=
  let real : Clock Rat → Clock ℝ := Clock.map fun x : Rat => (x : ℝ)
  (∀ (ρ : RealValues) (p : Params) (q : RealTerm) (s : State),
    (∀ t result, advance ρ q s p = .next (t, result) →
      advanceClock (.field ℝ) p (q.value ρ) (s.realClock ρ) s = .next (t.withClock s.clock, t.realClock ρ, result)) ∧
    (∀ why, advance ρ q s p = .refused why →
      advanceClock (.field ℝ) p (q.value ρ) (s.realClock ρ) s = .refused why) ∧
    (∀ t, setClockRate ρ q s = .next t → (s.realClock ρ).setRate (.field ℝ) (q.value ρ) = .next (t.realClock ρ)) ∧
    (∀ why, setClockRate ρ q s = .refused why → (s.realClock ρ).setRate (.field ℝ) (q.value ρ) = .refused why) ∧
    (∀ t, multiplyClockRate ρ q s = .next t →
      (s.realClock ρ).multiplyRate (.field ℝ) (q.value ρ) = .next (t.realClock ρ)) ∧
    (∀ why, multiplyClockRate ρ q s = .refused why →
      (s.realClock ρ).multiplyRate (.field ℝ) (q.value ρ) = .refused why)) ∧
  (∀ (c : Clock ℝ) (dt : ℝ) (s : State), ∃ (ρ : RealValues) (terms : Clock RealTerm) (q : RealTerm),
    (s.withClock terms).realClock ρ = c ∧ q.value ρ = dt) ∧
  (∀ (p : Params) (q : Rat) (c : Clock Rat) (s : State),
    (∀ t c' result, advanceClock (.field Rat) p q c s = .next (t, c', result) →
      advanceClock (.field ℝ) p (q : ℝ) (real c) s = .next (t, real c', result)) ∧
    (∀ why, advanceClock (.field Rat) p q c s = .refused why →
      advanceClock (.field ℝ) p (q : ℝ) (real c) s = .refused why) ∧
    (∀ c', c.setRate (.field Rat) q = .next c' → (real c).setRate (.field ℝ) (q : ℝ) = .next (real c')) ∧
    (∀ why, c.setRate (.field Rat) q = .refused why → (real c).setRate (.field ℝ) (q : ℝ) = .refused why) ∧
    (∀ c', c.multiplyRate (.field Rat) q = .next c' → (real c).multiplyRate (.field ℝ) (q : ℝ) = .next (real c')) ∧
    (∀ why, c.multiplyRate (.field Rat) q = .refused why → (real c).multiplyRate (.field ℝ) (q : ℝ) = .refused why))

/-- R225: a positive rate sets the period to its inverse, a positive factor divides the period, the countdown is not touched; a
rate or factor that is not positive has no move (decision D22). -/
def Obligations.ClockRateSetsThePeriod : Prop :=
  ∀ (ρ : RealValues) (s : State) (q : RealTerm),
    (0 < q.value ρ →
      (∃ t, setClockRate ρ q s = .next t ∧ t.clockPeriod.value ρ = 1 / q.value ρ ∧
        t = { s with clockPeriod := t.clockPeriod }) ∧
      (∃ t, multiplyClockRate ρ q s = .next t ∧ t.clockPeriod.value ρ = s.clockPeriod.value ρ / q.value ρ ∧
        t = { s with clockPeriod := t.clockPeriod })) ∧
    (q.value ρ ≤ 0 → setClockRate ρ q s = .refused .clockOutsideContract ∧
      multiplyClockRate ρ q s = .refused .clockOutsideContract)
end

