-- ==== Sys2Proof/Laws/Decode.lean ====
section
/-!
SUPPORT. Fields read back from the formats that lay them together (spec/30_encoding.md R71, R72), and words from their bytes.
Every format is read as a number once; the field lemmas are then arithmetic.
-/

namespace Sys2Proof

@[simp] theorem Reg.ofNibble_toNibble (r : Reg) : Reg.ofNibble r.toNibble = r := rfl
@[simp] theorem Reg.toNibble_ofNibble (n : Nibble) : (Reg.ofNibble n).toNibble = n := rfl

/-- Two bit vectors laid together, as a number. -/
theorem toNat_append_eq {k l : Nat} (a : BitVec k) (b : BitVec l) : (a ++ b).toNat = a.toNat * 2 ^ l + b.toNat := by
  rw [BitVec.toNat_append, ← Nat.shiftLeft_add_eq_or_of_lt b.isLt, Nat.shiftLeft_eq]

/-! ### Formats as numbers -/

theorem toNat_wordNNN (op : Nibble) (nnn : Addr12) : (wordNNN op nnn).toNat = op.toNat * 4096 + nnn.toNat :=
  toNat_append_eq op nnn

theorem toNat_wordXNN (op : Nibble) (x : Reg) (nn : Byte) :
    (wordXNN op x nn).toNat = op.toNat * 4096 + x.toNibble.toNat * 256 + nn.toNat := by
  have h := toNat_append_eq (op ++ x.toNibble) nn
  rw [toNat_append_eq op x.toNibble] at h
  exact h.trans (by omega)

theorem toNat_wordXYN (op : Nibble) (x y : Reg) (n : Nibble) :
    (wordXYN op x y n).toNat = op.toNat * 4096 + x.toNibble.toNat * 256 + y.toNibble.toNat * 16 + n.toNat := by
  have h := toNat_append_eq (op ++ x.toNibble ++ y.toNibble) n
  rw [toNat_append_eq (op ++ x.toNibble) y.toNibble, toNat_append_eq op x.toNibble] at h
  exact h.trans (by omega)

theorem toNat_wordOfBytes (hi lo : Byte) : (wordOfBytes hi lo).toNat = hi.toNat * 256 + lo.toNat :=
  toNat_append_eq hi lo

/-! ### Fields as numbers -/

theorem toNat_opOf (w : Word) : (opOf w).toNat = w.toNat / 4096 := by
  have := w.isLt
  simp only [opOf, BitVec.extractLsb'_toNat, Nat.shiftRight_eq_div_pow]
  omega

theorem toNat_xOf (w : Word) : (xOf w).toNat = w.toNat / 256 % 16 := by
  simp only [xOf, BitVec.extractLsb'_toNat, Nat.shiftRight_eq_div_pow]

theorem toNat_yOf (w : Word) : (yOf w).toNat = w.toNat / 16 % 16 := by
  simp only [yOf, BitVec.extractLsb'_toNat, Nat.shiftRight_eq_div_pow]

theorem toNat_nOf (w : Word) : (nOf w).toNat = w.toNat % 16 := by
  simp [nOf, BitVec.extractLsb'_toNat]

theorem toNat_nnOf (w : Word) : (nnOf w).toNat = w.toNat % 256 := by
  simp [nnOf, BitVec.extractLsb'_toNat]

theorem toNat_nnnOf (w : Word) : (nnnOf w).toNat = w.toNat % 4096 := by
  simp [nnnOf, BitVec.extractLsb'_toNat]

/-! ### Fields of formats -/

@[simp] theorem opOf_wordNNN (op : Nibble) (nnn : Addr12) : opOf (wordNNN op nnn) = op := by
  apply BitVec.eq_of_toNat_eq; rw [toNat_opOf, toNat_wordNNN]; omega

@[simp] theorem nnnOf_wordNNN (op : Nibble) (nnn : Addr12) : nnnOf (wordNNN op nnn) = nnn := by
  apply BitVec.eq_of_toNat_eq; rw [toNat_nnnOf, toNat_wordNNN]; omega

@[simp] theorem opOf_wordXNN (op : Nibble) (x : Reg) (nn : Byte) : opOf (wordXNN op x nn) = op := by
  apply BitVec.eq_of_toNat_eq; rw [toNat_opOf, toNat_wordXNN]; omega

@[simp] theorem xOf_wordXNN (op : Nibble) (x : Reg) (nn : Byte) : xOf (wordXNN op x nn) = x.toNibble := by
  apply BitVec.eq_of_toNat_eq; rw [toNat_xOf, toNat_wordXNN]; omega

@[simp] theorem nnOf_wordXNN (op : Nibble) (x : Reg) (nn : Byte) : nnOf (wordXNN op x nn) = nn := by
  apply BitVec.eq_of_toNat_eq; rw [toNat_nnOf, toNat_wordXNN]; omega

@[simp] theorem opOf_wordXYN (op : Nibble) (x y : Reg) (n : Nibble) : opOf (wordXYN op x y n) = op := by
  apply BitVec.eq_of_toNat_eq; rw [toNat_opOf, toNat_wordXYN]; omega

@[simp] theorem xOf_wordXYN (op : Nibble) (x y : Reg) (n : Nibble) : xOf (wordXYN op x y n) = x.toNibble := by
  apply BitVec.eq_of_toNat_eq; rw [toNat_xOf, toNat_wordXYN]; omega

@[simp] theorem yOf_wordXYN (op : Nibble) (x y : Reg) (n : Nibble) : yOf (wordXYN op x y n) = y.toNibble := by
  apply BitVec.eq_of_toNat_eq; rw [toNat_yOf, toNat_wordXYN]; omega

@[simp] theorem nOf_wordXYN (op : Nibble) (x y : Reg) (n : Nibble) : nOf (wordXYN op x y n) = n := by
  apply BitVec.eq_of_toNat_eq; rw [toNat_nOf, toNat_wordXYN]; omega

/-! ### Words and bytes -/

/-- A word laid out as two bytes and read back big-endian is the word (spec/20_memory.md R54). -/
@[simp] theorem wordOfBytes_bytesOfWord (w : Word) : wordOfBytes (bytesOfWord w).1 (bytesOfWord w).2 = w := by
  apply BitVec.eq_of_toNat_eq
  rw [toNat_wordOfBytes]
  have := w.isLt
  simp only [bytesOfWord, BitVec.extractLsb'_toNat, Nat.shiftRight_eq_div_pow]
  omega

/-- The byte at the lower address is the high byte. -/
@[simp] theorem bytesOfWord_wordOfBytes (hi lo : Byte) : bytesOfWord (wordOfBytes hi lo) = (hi, lo) := by
  have h := toNat_wordOfBytes hi lo
  refine Prod.ext (BitVec.eq_of_toNat_eq ?_) (BitVec.eq_of_toNat_eq ?_) <;>
    simp only [bytesOfWord, BitVec.extractLsb'_toNat, Nat.shiftRight_eq_div_pow, h] <;> omega

/-! ### The decoder on words of a format -/

/-- What a decoded word answers, whichever group it falls in. -/
theorem decode_eq_ok {w : Word} {i : Instr} : decode w = .ok i ↔ decodeWith false w = some i := by
  unfold decode strictXY0
  cases decodeWith false w <;> simp

theorem decode_eq_error {w : Word} {e : DecodeError} :
    decode w = .error e ↔ decodeWith false w = none ∧ e = .decodeFailure w := by
  unfold decode strictXY0
  cases decodeWith false w <;> simp [eq_comm]

end Sys2Proof
end

