-- ==== Sys2Proof/Laws/State.lean ====
section
/-!
SUPPORT. One lemma per field per update of the state, true by rfl, and what the register and memory views read after each
update, so that no proof unfolds a record update.
-/

namespace Sys2Proof.Machine

/-! ### setReg -/

@[simp] theorem State.setReg_mem (s : State) (r : Reg) (b : Byte) : (s.setReg r b).mem = s.mem := rfl
@[simp] theorem State.setReg_v (s : State) (r : Reg) (b : Byte) : (s.setReg r b).v = s.v.set r.val b r.isLt := rfl
@[simp] theorem State.setReg_i (s : State) (r : Reg) (b : Byte) : (s.setReg r b).i = s.i := rfl
@[simp] theorem State.setReg_pc (s : State) (r : Reg) (b : Byte) : (s.setReg r b).pc = s.pc := rfl
@[simp] theorem State.setReg_stack (s : State) (r : Reg) (b : Byte) : (s.setReg r b).stack = s.stack := rfl
@[simp] theorem State.setReg_sp (s : State) (r : Reg) (b : Byte) : (s.setReg r b).sp = s.sp := rfl
@[simp] theorem State.setReg_dt (s : State) (r : Reg) (b : Byte) : (s.setReg r b).dt = s.dt := rfl
@[simp] theorem State.setReg_st (s : State) (r : Reg) (b : Byte) : (s.setReg r b).st = s.st := rfl
@[simp] theorem State.setReg_fb (s : State) (r : Reg) (b : Byte) : (s.setReg r b).fb = s.fb := rfl
@[simp] theorem State.setReg_keys (s : State) (r : Reg) (b : Byte) : (s.setReg r b).keys = s.keys := rfl
@[simp] theorem State.setReg_latch (s : State) (r : Reg) (b : Byte) : (s.setReg r b).latch = s.latch := rfl
@[simp] theorem State.setReg_rng (s : State) (r : Reg) (b : Byte) : (s.setReg r b).rng = s.rng := rfl
@[simp] theorem State.setReg_fault (s : State) (r : Reg) (b : Byte) : (s.setReg r b).fault = s.fault := rfl
@[simp] theorem State.setReg_clockPeriod (s : State) (r : Reg) (b : Byte) : (s.setReg r b).clockPeriod = s.clockPeriod := rfl
@[simp] theorem State.setReg_cpuCountdown (s : State) (r : Reg) (b : Byte) : (s.setReg r b).cpuCountdown = s.cpuCountdown := rfl
@[simp] theorem State.setReg_timerCountdown (s : State) (r : Reg) (b : Byte) : (s.setReg r b).timerCountdown = s.timerCountdown := rfl
@[simp] theorem State.setReg_free (s : State) (r : Reg) (b : Byte) : (s.setReg r b).free = s.free := rfl

/-! ### setRegs -/

@[simp] theorem State.setRegs_mem (s : State) (f : Reg → Byte) : (s.setRegs f).mem = s.mem := rfl
@[simp] theorem State.setRegs_v (s : State) (f : Reg → Byte) : (s.setRegs f).v = Vector.ofFn f := rfl
@[simp] theorem State.setRegs_i (s : State) (f : Reg → Byte) : (s.setRegs f).i = s.i := rfl
@[simp] theorem State.setRegs_pc (s : State) (f : Reg → Byte) : (s.setRegs f).pc = s.pc := rfl
@[simp] theorem State.setRegs_stack (s : State) (f : Reg → Byte) : (s.setRegs f).stack = s.stack := rfl
@[simp] theorem State.setRegs_sp (s : State) (f : Reg → Byte) : (s.setRegs f).sp = s.sp := rfl
@[simp] theorem State.setRegs_dt (s : State) (f : Reg → Byte) : (s.setRegs f).dt = s.dt := rfl
@[simp] theorem State.setRegs_st (s : State) (f : Reg → Byte) : (s.setRegs f).st = s.st := rfl
@[simp] theorem State.setRegs_fb (s : State) (f : Reg → Byte) : (s.setRegs f).fb = s.fb := rfl
@[simp] theorem State.setRegs_keys (s : State) (f : Reg → Byte) : (s.setRegs f).keys = s.keys := rfl
@[simp] theorem State.setRegs_latch (s : State) (f : Reg → Byte) : (s.setRegs f).latch = s.latch := rfl
@[simp] theorem State.setRegs_rng (s : State) (f : Reg → Byte) : (s.setRegs f).rng = s.rng := rfl
@[simp] theorem State.setRegs_fault (s : State) (f : Reg → Byte) : (s.setRegs f).fault = s.fault := rfl
@[simp] theorem State.setRegs_clockPeriod (s : State) (f : Reg → Byte) : (s.setRegs f).clockPeriod = s.clockPeriod := rfl
@[simp] theorem State.setRegs_cpuCountdown (s : State) (f : Reg → Byte) : (s.setRegs f).cpuCountdown = s.cpuCountdown := rfl
@[simp] theorem State.setRegs_timerCountdown (s : State) (f : Reg → Byte) : (s.setRegs f).timerCountdown = s.timerCountdown := rfl
@[simp] theorem State.setRegs_free (s : State) (f : Reg → Byte) : (s.setRegs f).free = s.free := rfl

/-! ### setI -/

@[simp] theorem State.setI_mem (s : State) (w : Word) : (s.setI w).mem = s.mem := rfl
@[simp] theorem State.setI_v (s : State) (w : Word) : (s.setI w).v = s.v := rfl
@[simp] theorem State.setI_i (s : State) (w : Word) : (s.setI w).i = w := rfl
@[simp] theorem State.setI_pc (s : State) (w : Word) : (s.setI w).pc = s.pc := rfl
@[simp] theorem State.setI_stack (s : State) (w : Word) : (s.setI w).stack = s.stack := rfl
@[simp] theorem State.setI_sp (s : State) (w : Word) : (s.setI w).sp = s.sp := rfl
@[simp] theorem State.setI_dt (s : State) (w : Word) : (s.setI w).dt = s.dt := rfl
@[simp] theorem State.setI_st (s : State) (w : Word) : (s.setI w).st = s.st := rfl
@[simp] theorem State.setI_fb (s : State) (w : Word) : (s.setI w).fb = s.fb := rfl
@[simp] theorem State.setI_keys (s : State) (w : Word) : (s.setI w).keys = s.keys := rfl
@[simp] theorem State.setI_latch (s : State) (w : Word) : (s.setI w).latch = s.latch := rfl
@[simp] theorem State.setI_rng (s : State) (w : Word) : (s.setI w).rng = s.rng := rfl
@[simp] theorem State.setI_fault (s : State) (w : Word) : (s.setI w).fault = s.fault := rfl
@[simp] theorem State.setI_clockPeriod (s : State) (w : Word) : (s.setI w).clockPeriod = s.clockPeriod := rfl
@[simp] theorem State.setI_cpuCountdown (s : State) (w : Word) : (s.setI w).cpuCountdown = s.cpuCountdown := rfl
@[simp] theorem State.setI_timerCountdown (s : State) (w : Word) : (s.setI w).timerCountdown = s.timerCountdown := rfl
@[simp] theorem State.setI_free (s : State) (w : Word) : (s.setI w).free = s.free := rfl

/-! ### jumpTo -/

@[simp] theorem State.jumpTo_mem (s : State) (w : Word) : (s.jumpTo w).mem = s.mem := rfl
@[simp] theorem State.jumpTo_v (s : State) (w : Word) : (s.jumpTo w).v = s.v := rfl
@[simp] theorem State.jumpTo_i (s : State) (w : Word) : (s.jumpTo w).i = s.i := rfl
@[simp] theorem State.jumpTo_pc (s : State) (w : Word) : (s.jumpTo w).pc = w := rfl
@[simp] theorem State.jumpTo_stack (s : State) (w : Word) : (s.jumpTo w).stack = s.stack := rfl
@[simp] theorem State.jumpTo_sp (s : State) (w : Word) : (s.jumpTo w).sp = s.sp := rfl
@[simp] theorem State.jumpTo_dt (s : State) (w : Word) : (s.jumpTo w).dt = s.dt := rfl
@[simp] theorem State.jumpTo_st (s : State) (w : Word) : (s.jumpTo w).st = s.st := rfl
@[simp] theorem State.jumpTo_fb (s : State) (w : Word) : (s.jumpTo w).fb = s.fb := rfl
@[simp] theorem State.jumpTo_keys (s : State) (w : Word) : (s.jumpTo w).keys = s.keys := rfl
@[simp] theorem State.jumpTo_latch (s : State) (w : Word) : (s.jumpTo w).latch = s.latch := rfl
@[simp] theorem State.jumpTo_rng (s : State) (w : Word) : (s.jumpTo w).rng = s.rng := rfl
@[simp] theorem State.jumpTo_fault (s : State) (w : Word) : (s.jumpTo w).fault = s.fault := rfl
@[simp] theorem State.jumpTo_clockPeriod (s : State) (w : Word) : (s.jumpTo w).clockPeriod = s.clockPeriod := rfl
@[simp] theorem State.jumpTo_cpuCountdown (s : State) (w : Word) : (s.jumpTo w).cpuCountdown = s.cpuCountdown := rfl
@[simp] theorem State.jumpTo_timerCountdown (s : State) (w : Word) : (s.jumpTo w).timerCountdown = s.timerCountdown := rfl
@[simp] theorem State.jumpTo_free (s : State) (w : Word) : (s.jumpTo w).free = s.free := rfl

/-! ### advancePc -/

@[simp] theorem State.advancePc_mem (s : State) : s.advancePc.mem = s.mem := rfl
@[simp] theorem State.advancePc_v (s : State) : s.advancePc.v = s.v := rfl
@[simp] theorem State.advancePc_i (s : State) : s.advancePc.i = s.i := rfl
@[simp] theorem State.advancePc_pc (s : State) : s.advancePc.pc = s.pc + 2 := rfl
@[simp] theorem State.advancePc_stack (s : State) : s.advancePc.stack = s.stack := rfl
@[simp] theorem State.advancePc_sp (s : State) : s.advancePc.sp = s.sp := rfl
@[simp] theorem State.advancePc_dt (s : State) : s.advancePc.dt = s.dt := rfl
@[simp] theorem State.advancePc_st (s : State) : s.advancePc.st = s.st := rfl
@[simp] theorem State.advancePc_fb (s : State) : s.advancePc.fb = s.fb := rfl
@[simp] theorem State.advancePc_keys (s : State) : s.advancePc.keys = s.keys := rfl
@[simp] theorem State.advancePc_latch (s : State) : s.advancePc.latch = s.latch := rfl
@[simp] theorem State.advancePc_rng (s : State) : s.advancePc.rng = s.rng := rfl
@[simp] theorem State.advancePc_fault (s : State) : s.advancePc.fault = s.fault := rfl
@[simp] theorem State.advancePc_clockPeriod (s : State) : s.advancePc.clockPeriod = s.clockPeriod := rfl
@[simp] theorem State.advancePc_cpuCountdown (s : State) : s.advancePc.cpuCountdown = s.cpuCountdown := rfl
@[simp] theorem State.advancePc_timerCountdown (s : State) : s.advancePc.timerCountdown = s.timerCountdown := rfl
@[simp] theorem State.advancePc_free (s : State) : s.advancePc.free = s.free := rfl

/-! ### raise -/

@[simp] theorem State.raise_mem (s : State) (f : Fault) : (s.raise f).mem = s.mem := rfl
@[simp] theorem State.raise_v (s : State) (f : Fault) : (s.raise f).v = s.v := rfl
@[simp] theorem State.raise_i (s : State) (f : Fault) : (s.raise f).i = s.i := rfl
@[simp] theorem State.raise_pc (s : State) (f : Fault) : (s.raise f).pc = s.pc := rfl
@[simp] theorem State.raise_stack (s : State) (f : Fault) : (s.raise f).stack = s.stack := rfl
@[simp] theorem State.raise_sp (s : State) (f : Fault) : (s.raise f).sp = s.sp := rfl
@[simp] theorem State.raise_dt (s : State) (f : Fault) : (s.raise f).dt = s.dt := rfl
@[simp] theorem State.raise_st (s : State) (f : Fault) : (s.raise f).st = s.st := rfl
@[simp] theorem State.raise_fb (s : State) (f : Fault) : (s.raise f).fb = s.fb := rfl
@[simp] theorem State.raise_keys (s : State) (f : Fault) : (s.raise f).keys = s.keys := rfl
@[simp] theorem State.raise_latch (s : State) (f : Fault) : (s.raise f).latch = s.latch := rfl
@[simp] theorem State.raise_rng (s : State) (f : Fault) : (s.raise f).rng = s.rng := rfl
@[simp] theorem State.raise_fault (s : State) (f : Fault) : (s.raise f).fault = some f := rfl
@[simp] theorem State.raise_clockPeriod (s : State) (f : Fault) : (s.raise f).clockPeriod = s.clockPeriod := rfl
@[simp] theorem State.raise_cpuCountdown (s : State) (f : Fault) : (s.raise f).cpuCountdown = s.cpuCountdown := rfl
@[simp] theorem State.raise_timerCountdown (s : State) (f : Fault) : (s.raise f).timerCountdown = s.timerCountdown := rfl
@[simp] theorem State.raise_free (s : State) (f : Fault) : (s.raise f).free = s.free := rfl

/-! ### setDt -/

@[simp] theorem State.setDt_mem (s : State) (b : Byte) : (s.setDt b).mem = s.mem := rfl
@[simp] theorem State.setDt_v (s : State) (b : Byte) : (s.setDt b).v = s.v := rfl
@[simp] theorem State.setDt_i (s : State) (b : Byte) : (s.setDt b).i = s.i := rfl
@[simp] theorem State.setDt_pc (s : State) (b : Byte) : (s.setDt b).pc = s.pc := rfl
@[simp] theorem State.setDt_stack (s : State) (b : Byte) : (s.setDt b).stack = s.stack := rfl
@[simp] theorem State.setDt_sp (s : State) (b : Byte) : (s.setDt b).sp = s.sp := rfl
@[simp] theorem State.setDt_dt (s : State) (b : Byte) : (s.setDt b).dt = b := rfl
@[simp] theorem State.setDt_st (s : State) (b : Byte) : (s.setDt b).st = s.st := rfl
@[simp] theorem State.setDt_fb (s : State) (b : Byte) : (s.setDt b).fb = s.fb := rfl
@[simp] theorem State.setDt_keys (s : State) (b : Byte) : (s.setDt b).keys = s.keys := rfl
@[simp] theorem State.setDt_latch (s : State) (b : Byte) : (s.setDt b).latch = s.latch := rfl
@[simp] theorem State.setDt_rng (s : State) (b : Byte) : (s.setDt b).rng = s.rng := rfl
@[simp] theorem State.setDt_fault (s : State) (b : Byte) : (s.setDt b).fault = s.fault := rfl
@[simp] theorem State.setDt_clockPeriod (s : State) (b : Byte) : (s.setDt b).clockPeriod = s.clockPeriod := rfl
@[simp] theorem State.setDt_cpuCountdown (s : State) (b : Byte) : (s.setDt b).cpuCountdown = s.cpuCountdown := rfl
@[simp] theorem State.setDt_timerCountdown (s : State) (b : Byte) : (s.setDt b).timerCountdown = s.timerCountdown := rfl
@[simp] theorem State.setDt_free (s : State) (b : Byte) : (s.setDt b).free = s.free := rfl

/-! ### setSt -/

@[simp] theorem State.setSt_mem (s : State) (b : Byte) : (s.setSt b).mem = s.mem := rfl
@[simp] theorem State.setSt_v (s : State) (b : Byte) : (s.setSt b).v = s.v := rfl
@[simp] theorem State.setSt_i (s : State) (b : Byte) : (s.setSt b).i = s.i := rfl
@[simp] theorem State.setSt_pc (s : State) (b : Byte) : (s.setSt b).pc = s.pc := rfl
@[simp] theorem State.setSt_stack (s : State) (b : Byte) : (s.setSt b).stack = s.stack := rfl
@[simp] theorem State.setSt_sp (s : State) (b : Byte) : (s.setSt b).sp = s.sp := rfl
@[simp] theorem State.setSt_dt (s : State) (b : Byte) : (s.setSt b).dt = s.dt := rfl
@[simp] theorem State.setSt_st (s : State) (b : Byte) : (s.setSt b).st = b := rfl
@[simp] theorem State.setSt_fb (s : State) (b : Byte) : (s.setSt b).fb = s.fb := rfl
@[simp] theorem State.setSt_keys (s : State) (b : Byte) : (s.setSt b).keys = s.keys := rfl
@[simp] theorem State.setSt_latch (s : State) (b : Byte) : (s.setSt b).latch = s.latch := rfl
@[simp] theorem State.setSt_rng (s : State) (b : Byte) : (s.setSt b).rng = s.rng := rfl
@[simp] theorem State.setSt_fault (s : State) (b : Byte) : (s.setSt b).fault = s.fault := rfl
@[simp] theorem State.setSt_clockPeriod (s : State) (b : Byte) : (s.setSt b).clockPeriod = s.clockPeriod := rfl
@[simp] theorem State.setSt_cpuCountdown (s : State) (b : Byte) : (s.setSt b).cpuCountdown = s.cpuCountdown := rfl
@[simp] theorem State.setSt_timerCountdown (s : State) (b : Byte) : (s.setSt b).timerCountdown = s.timerCountdown := rfl
@[simp] theorem State.setSt_free (s : State) (b : Byte) : (s.setSt b).free = s.free := rfl

/-! ### awaitKey -/

@[simp] theorem State.awaitKey_mem (s : State) (r : Reg) : (s.awaitKey r).mem = s.mem := rfl
@[simp] theorem State.awaitKey_v (s : State) (r : Reg) : (s.awaitKey r).v = s.v := rfl
@[simp] theorem State.awaitKey_i (s : State) (r : Reg) : (s.awaitKey r).i = s.i := rfl
@[simp] theorem State.awaitKey_pc (s : State) (r : Reg) : (s.awaitKey r).pc = s.pc := rfl
@[simp] theorem State.awaitKey_stack (s : State) (r : Reg) : (s.awaitKey r).stack = s.stack := rfl
@[simp] theorem State.awaitKey_sp (s : State) (r : Reg) : (s.awaitKey r).sp = s.sp := rfl
@[simp] theorem State.awaitKey_dt (s : State) (r : Reg) : (s.awaitKey r).dt = s.dt := rfl
@[simp] theorem State.awaitKey_st (s : State) (r : Reg) : (s.awaitKey r).st = s.st := rfl
@[simp] theorem State.awaitKey_fb (s : State) (r : Reg) : (s.awaitKey r).fb = s.fb := rfl
@[simp] theorem State.awaitKey_keys (s : State) (r : Reg) : (s.awaitKey r).keys = s.keys := rfl
@[simp] theorem State.awaitKey_latch (s : State) (r : Reg) : (s.awaitKey r).latch = some r := rfl
@[simp] theorem State.awaitKey_rng (s : State) (r : Reg) : (s.awaitKey r).rng = s.rng := rfl
@[simp] theorem State.awaitKey_fault (s : State) (r : Reg) : (s.awaitKey r).fault = s.fault := rfl
@[simp] theorem State.awaitKey_clockPeriod (s : State) (r : Reg) : (s.awaitKey r).clockPeriod = s.clockPeriod := rfl
@[simp] theorem State.awaitKey_cpuCountdown (s : State) (r : Reg) : (s.awaitKey r).cpuCountdown = s.cpuCountdown := rfl
@[simp] theorem State.awaitKey_timerCountdown (s : State) (r : Reg) : (s.awaitKey r).timerCountdown = s.timerCountdown := rfl
@[simp] theorem State.awaitKey_free (s : State) (r : Reg) : (s.awaitKey r).free = s.free := rfl

/-! ### advanceRng -/

@[simp] theorem State.advanceRng_mem (s : State) : s.advanceRng.mem = s.mem := rfl
@[simp] theorem State.advanceRng_v (s : State) : s.advanceRng.v = s.v := rfl
@[simp] theorem State.advanceRng_i (s : State) : s.advanceRng.i = s.i := rfl
@[simp] theorem State.advanceRng_pc (s : State) : s.advanceRng.pc = s.pc := rfl
@[simp] theorem State.advanceRng_stack (s : State) : s.advanceRng.stack = s.stack := rfl
@[simp] theorem State.advanceRng_sp (s : State) : s.advanceRng.sp = s.sp := rfl
@[simp] theorem State.advanceRng_dt (s : State) : s.advanceRng.dt = s.dt := rfl
@[simp] theorem State.advanceRng_st (s : State) : s.advanceRng.st = s.st := rfl
@[simp] theorem State.advanceRng_fb (s : State) : s.advanceRng.fb = s.fb := rfl
@[simp] theorem State.advanceRng_keys (s : State) : s.advanceRng.keys = s.keys := rfl
@[simp] theorem State.advanceRng_latch (s : State) : s.advanceRng.latch = s.latch := rfl
@[simp] theorem State.advanceRng_rng (s : State) : s.advanceRng.rng = s.rng + 1 := rfl
@[simp] theorem State.advanceRng_fault (s : State) : s.advanceRng.fault = s.fault := rfl
@[simp] theorem State.advanceRng_clockPeriod (s : State) : s.advanceRng.clockPeriod = s.clockPeriod := rfl
@[simp] theorem State.advanceRng_cpuCountdown (s : State) : s.advanceRng.cpuCountdown = s.cpuCountdown := rfl
@[simp] theorem State.advanceRng_timerCountdown (s : State) : s.advanceRng.timerCountdown = s.timerCountdown := rfl
@[simp] theorem State.advanceRng_free (s : State) : s.advanceRng.free = s.free := rfl

/-! ### What `reg` and `memRead` see -/

/-- A register reads back what was last written to it, and only that register changes (R21). -/
@[simp] theorem State.reg_setReg (s : State) (r r' : Reg) (b : Byte) :
    (s.setReg r b).reg r' = if r' = r then b else s.reg r' := by
  simp only [State.reg, State.setReg, Vector.getElem_set, Fin.ext_iff, eq_comm]

@[simp] theorem State.reg_setRegs (s : State) (f : Reg → Byte) (r : Reg) : (s.setRegs f).reg r = f r := by
  simp [State.reg, State.setRegs]

@[simp] theorem State.memRead_setReg (s : State) (r : Reg) (b : Byte) (a : Nat) : (s.setReg r b).memRead a = s.memRead a := rfl
@[simp] theorem State.memRead_setRegs (s : State) (f : Reg → Byte) (a : Nat) : (s.setRegs f).memRead a = s.memRead a := rfl
@[simp] theorem State.reg_setI (s : State) (w : Word) (r' : Reg) : (s.setI w).reg r' = s.reg r' := rfl
@[simp] theorem State.memRead_setI (s : State) (w : Word) (a : Nat) : (s.setI w).memRead a = s.memRead a := rfl
@[simp] theorem State.reg_jumpTo (s : State) (w : Word) (r' : Reg) : (s.jumpTo w).reg r' = s.reg r' := rfl
@[simp] theorem State.memRead_jumpTo (s : State) (w : Word) (a : Nat) : (s.jumpTo w).memRead a = s.memRead a := rfl
@[simp] theorem State.reg_advancePc (s : State) (r' : Reg) : s.advancePc.reg r' = s.reg r' := rfl
@[simp] theorem State.memRead_advancePc (s : State) (a : Nat) : s.advancePc.memRead a = s.memRead a := rfl
@[simp] theorem State.reg_raise (s : State) (f : Fault) (r' : Reg) : (s.raise f).reg r' = s.reg r' := rfl
@[simp] theorem State.memRead_raise (s : State) (f : Fault) (a : Nat) : (s.raise f).memRead a = s.memRead a := rfl
@[simp] theorem State.reg_setDt (s : State) (b : Byte) (r' : Reg) : (s.setDt b).reg r' = s.reg r' := rfl
@[simp] theorem State.memRead_setDt (s : State) (b : Byte) (a : Nat) : (s.setDt b).memRead a = s.memRead a := rfl
@[simp] theorem State.reg_setSt (s : State) (b : Byte) (r' : Reg) : (s.setSt b).reg r' = s.reg r' := rfl
@[simp] theorem State.memRead_setSt (s : State) (b : Byte) (a : Nat) : (s.setSt b).memRead a = s.memRead a := rfl
@[simp] theorem State.reg_awaitKey (s : State) (r : Reg) (r' : Reg) : (s.awaitKey r).reg r' = s.reg r' := rfl
@[simp] theorem State.memRead_awaitKey (s : State) (r : Reg) (a : Nat) : (s.awaitKey r).memRead a = s.memRead a := rfl
@[simp] theorem State.reg_advanceRng (s : State) (r' : Reg) : s.advanceRng.reg r' = s.reg r' := rfl
@[simp] theorem State.memRead_advanceRng (s : State) (a : Nat) : s.advanceRng.memRead a = s.memRead a := rfl

/-! ### Result and flag -/

/-- The flag stays even where the result goes to the same register (R120). -/
@[simp] theorem State.reg_setResultAndFlag (s : State) (x r : Reg) (result : Byte) (flag : Bool) :
    (s.setResultAndFlag x result flag).reg r = if r = VF then flagByte flag else if r = x then result else s.reg r := by
  simp [State.setResultAndFlag]

/-- Writing a result and a flag changes nothing but registers. -/
theorem State.setResultAndFlag_eq (s : State) (x : Reg) (result : Byte) (flag : Bool) :
    s.setResultAndFlag x result flag = { s with v := (s.setResultAndFlag x result flag).v } := rfl

/-! ### setResultAndFlag, field by field -/

@[simp] theorem State.setResultAndFlag_mem (s : State) (x : Reg) (result : Byte) (flag : Bool) :
    (s.setResultAndFlag x result flag).mem = s.mem := rfl
@[simp] theorem State.setResultAndFlag_i (s : State) (x : Reg) (result : Byte) (flag : Bool) :
    (s.setResultAndFlag x result flag).i = s.i := rfl
@[simp] theorem State.setResultAndFlag_pc (s : State) (x : Reg) (result : Byte) (flag : Bool) :
    (s.setResultAndFlag x result flag).pc = s.pc := rfl
@[simp] theorem State.setResultAndFlag_stack (s : State) (x : Reg) (result : Byte) (flag : Bool) :
    (s.setResultAndFlag x result flag).stack = s.stack := rfl
@[simp] theorem State.setResultAndFlag_sp (s : State) (x : Reg) (result : Byte) (flag : Bool) :
    (s.setResultAndFlag x result flag).sp = s.sp := rfl
@[simp] theorem State.setResultAndFlag_dt (s : State) (x : Reg) (result : Byte) (flag : Bool) :
    (s.setResultAndFlag x result flag).dt = s.dt := rfl
@[simp] theorem State.setResultAndFlag_st (s : State) (x : Reg) (result : Byte) (flag : Bool) :
    (s.setResultAndFlag x result flag).st = s.st := rfl
@[simp] theorem State.setResultAndFlag_fb (s : State) (x : Reg) (result : Byte) (flag : Bool) :
    (s.setResultAndFlag x result flag).fb = s.fb := rfl
@[simp] theorem State.setResultAndFlag_keys (s : State) (x : Reg) (result : Byte) (flag : Bool) :
    (s.setResultAndFlag x result flag).keys = s.keys := rfl
@[simp] theorem State.setResultAndFlag_latch (s : State) (x : Reg) (result : Byte) (flag : Bool) :
    (s.setResultAndFlag x result flag).latch = s.latch := rfl
@[simp] theorem State.setResultAndFlag_rng (s : State) (x : Reg) (result : Byte) (flag : Bool) :
    (s.setResultAndFlag x result flag).rng = s.rng := rfl
@[simp] theorem State.setResultAndFlag_fault (s : State) (x : Reg) (result : Byte) (flag : Bool) :
    (s.setResultAndFlag x result flag).fault = s.fault := rfl
@[simp] theorem State.setResultAndFlag_clockPeriod (s : State) (x : Reg) (result : Byte) (flag : Bool) :
    (s.setResultAndFlag x result flag).clockPeriod = s.clockPeriod := rfl
@[simp] theorem State.setResultAndFlag_cpuCountdown (s : State) (x : Reg) (result : Byte) (flag : Bool) :
    (s.setResultAndFlag x result flag).cpuCountdown = s.cpuCountdown := rfl
@[simp] theorem State.setResultAndFlag_timerCountdown (s : State) (x : Reg) (result : Byte) (flag : Bool) :
    (s.setResultAndFlag x result flag).timerCountdown = s.timerCountdown := rfl
@[simp] theorem State.setResultAndFlag_free (s : State) (x : Reg) (result : Byte) (flag : Bool) :
    (s.setResultAndFlag x result flag).free = s.free := rfl
@[simp] theorem State.memRead_setResultAndFlag (s : State) (x : Reg) (result : Byte) (flag : Bool) (a : Nat) :
    (s.setResultAndFlag x result flag).memRead a = s.memRead a := rfl

/-! ### scrambleMem -/

@[simp] theorem State.scrambleMem_mem (s : State) (base n : Nat) : (s.scrambleMem base n).mem = s.mem.writeBytes base (s.freeBytes n) := rfl
@[simp] theorem State.scrambleMem_v (s : State) (base n : Nat) : (s.scrambleMem base n).v = s.v := rfl
@[simp] theorem State.scrambleMem_i (s : State) (base n : Nat) : (s.scrambleMem base n).i = s.i := rfl
@[simp] theorem State.scrambleMem_pc (s : State) (base n : Nat) : (s.scrambleMem base n).pc = s.pc := rfl
@[simp] theorem State.scrambleMem_stack (s : State) (base n : Nat) : (s.scrambleMem base n).stack = s.stack := rfl
@[simp] theorem State.scrambleMem_sp (s : State) (base n : Nat) : (s.scrambleMem base n).sp = s.sp := rfl
@[simp] theorem State.scrambleMem_dt (s : State) (base n : Nat) : (s.scrambleMem base n).dt = s.dt := rfl
@[simp] theorem State.scrambleMem_st (s : State) (base n : Nat) : (s.scrambleMem base n).st = s.st := rfl
@[simp] theorem State.scrambleMem_fb (s : State) (base n : Nat) : (s.scrambleMem base n).fb = s.fb := rfl
@[simp] theorem State.scrambleMem_keys (s : State) (base n : Nat) : (s.scrambleMem base n).keys = s.keys := rfl
@[simp] theorem State.scrambleMem_latch (s : State) (base n : Nat) : (s.scrambleMem base n).latch = s.latch := rfl
@[simp] theorem State.scrambleMem_rng (s : State) (base n : Nat) : (s.scrambleMem base n).rng = s.rng := rfl
@[simp] theorem State.scrambleMem_fault (s : State) (base n : Nat) : (s.scrambleMem base n).fault = s.fault := rfl
@[simp] theorem State.scrambleMem_clockPeriod (s : State) (base n : Nat) : (s.scrambleMem base n).clockPeriod = s.clockPeriod := rfl
@[simp] theorem State.scrambleMem_cpuCountdown (s : State) (base n : Nat) : (s.scrambleMem base n).cpuCountdown = s.cpuCountdown := rfl
@[simp] theorem State.scrambleMem_timerCountdown (s : State) (base n : Nat) : (s.scrambleMem base n).timerCountdown = s.timerCountdown := rfl
@[simp] theorem State.scrambleMem_free (s : State) (base n : Nat) : (s.scrambleMem base n).free = s.free + n := rfl
@[simp] theorem State.reg_scrambleMem (s : State) (base n : Nat) (r : Reg) : (s.scrambleMem base n).reg r = s.reg r := rfl

/-! ### scrambleRegs -/

@[simp] theorem State.scrambleRegs_mem (s : State) (n : Nat) : (s.scrambleRegs n).mem = s.mem := rfl
@[simp] theorem State.scrambleRegs_i (s : State) (n : Nat) : (s.scrambleRegs n).i = s.i := rfl
@[simp] theorem State.scrambleRegs_pc (s : State) (n : Nat) : (s.scrambleRegs n).pc = s.pc := rfl
@[simp] theorem State.scrambleRegs_stack (s : State) (n : Nat) : (s.scrambleRegs n).stack = s.stack := rfl
@[simp] theorem State.scrambleRegs_sp (s : State) (n : Nat) : (s.scrambleRegs n).sp = s.sp := rfl
@[simp] theorem State.scrambleRegs_dt (s : State) (n : Nat) : (s.scrambleRegs n).dt = s.dt := rfl
@[simp] theorem State.scrambleRegs_st (s : State) (n : Nat) : (s.scrambleRegs n).st = s.st := rfl
@[simp] theorem State.scrambleRegs_fb (s : State) (n : Nat) : (s.scrambleRegs n).fb = s.fb := rfl
@[simp] theorem State.scrambleRegs_keys (s : State) (n : Nat) : (s.scrambleRegs n).keys = s.keys := rfl
@[simp] theorem State.scrambleRegs_latch (s : State) (n : Nat) : (s.scrambleRegs n).latch = s.latch := rfl
@[simp] theorem State.scrambleRegs_rng (s : State) (n : Nat) : (s.scrambleRegs n).rng = s.rng := rfl
@[simp] theorem State.scrambleRegs_fault (s : State) (n : Nat) : (s.scrambleRegs n).fault = s.fault := rfl
@[simp] theorem State.scrambleRegs_clockPeriod (s : State) (n : Nat) : (s.scrambleRegs n).clockPeriod = s.clockPeriod := rfl
@[simp] theorem State.scrambleRegs_cpuCountdown (s : State) (n : Nat) : (s.scrambleRegs n).cpuCountdown = s.cpuCountdown := rfl
@[simp] theorem State.scrambleRegs_timerCountdown (s : State) (n : Nat) : (s.scrambleRegs n).timerCountdown = s.timerCountdown := rfl
@[simp] theorem State.scrambleRegs_free (s : State) (n : Nat) : (s.scrambleRegs n).free = s.free + n := rfl
/-- The first `n` registers are free bytes, the others are as before (log 6). -/
@[simp] theorem State.reg_scrambleRegs (s : State) (n : Nat) (r : Reg) :
    (s.scrambleRegs n).reg r = if r.val < n then Config.freeByte (s.free + r.val) else s.reg r := by
  simp [State.reg, State.scrambleRegs, State.setRegs]
@[simp] theorem State.memRead_scrambleRegs (s : State) (n : Nat) (a : Nat) : (s.scrambleRegs n).memRead a = s.memRead a := rfl

/-! ### scrambleFrame -/

@[simp] theorem State.scrambleFrame_mem (s : State) (base n px py : Nat) : (s.scrambleFrame base n px py).mem = s.mem := rfl
@[simp] theorem State.scrambleFrame_v (s : State) (base n px py : Nat) : (s.scrambleFrame base n px py).v = s.v := rfl
@[simp] theorem State.scrambleFrame_i (s : State) (base n px py : Nat) : (s.scrambleFrame base n px py).i = s.i := rfl
@[simp] theorem State.scrambleFrame_pc (s : State) (base n px py : Nat) : (s.scrambleFrame base n px py).pc = s.pc := rfl
@[simp] theorem State.scrambleFrame_stack (s : State) (base n px py : Nat) : (s.scrambleFrame base n px py).stack = s.stack := rfl
@[simp] theorem State.scrambleFrame_sp (s : State) (base n px py : Nat) : (s.scrambleFrame base n px py).sp = s.sp := rfl
@[simp] theorem State.scrambleFrame_dt (s : State) (base n px py : Nat) : (s.scrambleFrame base n px py).dt = s.dt := rfl
@[simp] theorem State.scrambleFrame_st (s : State) (base n px py : Nat) : (s.scrambleFrame base n px py).st = s.st := rfl
@[simp] theorem State.scrambleFrame_keys (s : State) (base n px py : Nat) : (s.scrambleFrame base n px py).keys = s.keys := rfl
@[simp] theorem State.scrambleFrame_latch (s : State) (base n px py : Nat) : (s.scrambleFrame base n px py).latch = s.latch := rfl
@[simp] theorem State.scrambleFrame_rng (s : State) (base n px py : Nat) : (s.scrambleFrame base n px py).rng = s.rng := rfl
@[simp] theorem State.scrambleFrame_fault (s : State) (base n px py : Nat) : (s.scrambleFrame base n px py).fault = s.fault := rfl
@[simp] theorem State.scrambleFrame_clockPeriod (s : State) (base n px py : Nat) : (s.scrambleFrame base n px py).clockPeriod = s.clockPeriod := rfl
@[simp] theorem State.scrambleFrame_cpuCountdown (s : State) (base n px py : Nat) : (s.scrambleFrame base n px py).cpuCountdown = s.cpuCountdown := rfl
@[simp] theorem State.scrambleFrame_timerCountdown (s : State) (base n px py : Nat) : (s.scrambleFrame base n px py).timerCountdown = s.timerCountdown := rfl
@[simp] theorem State.scrambleFrame_free (s : State) (base n px py : Nat) : (s.scrambleFrame base n px py).free = s.free + n := rfl
@[simp] theorem State.reg_scrambleFrame (s : State) (base n px py : Nat) (r : Reg) : (s.scrambleFrame base n px py).reg r = s.reg r := rfl
@[simp] theorem State.memRead_scrambleFrame (s : State) (base n px py : Nat) (a : Nat) : (s.scrambleFrame base n px py).memRead a = s.memRead a := rfl

/-! ### Skips, field by field -/

@[simp] theorem State.skipIf_mem (s : State) (c : Bool) : (s.skipIf c).mem = s.mem := by cases c <;> rfl
@[simp] theorem State.skipIf_v (s : State) (c : Bool) : (s.skipIf c).v = s.v := by cases c <;> rfl
@[simp] theorem State.skipIf_i (s : State) (c : Bool) : (s.skipIf c).i = s.i := by cases c <;> rfl
@[simp] theorem State.skipIf_stack (s : State) (c : Bool) : (s.skipIf c).stack = s.stack := by cases c <;> rfl
@[simp] theorem State.skipIf_sp (s : State) (c : Bool) : (s.skipIf c).sp = s.sp := by cases c <;> rfl
@[simp] theorem State.skipIf_dt (s : State) (c : Bool) : (s.skipIf c).dt = s.dt := by cases c <;> rfl
@[simp] theorem State.skipIf_st (s : State) (c : Bool) : (s.skipIf c).st = s.st := by cases c <;> rfl
@[simp] theorem State.skipIf_fb (s : State) (c : Bool) : (s.skipIf c).fb = s.fb := by cases c <;> rfl
@[simp] theorem State.skipIf_keys (s : State) (c : Bool) : (s.skipIf c).keys = s.keys := by cases c <;> rfl
@[simp] theorem State.skipIf_latch (s : State) (c : Bool) : (s.skipIf c).latch = s.latch := by cases c <;> rfl
@[simp] theorem State.skipIf_rng (s : State) (c : Bool) : (s.skipIf c).rng = s.rng := by cases c <;> rfl
@[simp] theorem State.skipIf_fault (s : State) (c : Bool) : (s.skipIf c).fault = s.fault := by cases c <;> rfl
@[simp] theorem State.skipIf_clockPeriod (s : State) (c : Bool) : (s.skipIf c).clockPeriod = s.clockPeriod := by cases c <;> rfl
@[simp] theorem State.skipIf_cpuCountdown (s : State) (c : Bool) : (s.skipIf c).cpuCountdown = s.cpuCountdown := by cases c <;> rfl
@[simp] theorem State.skipIf_timerCountdown (s : State) (c : Bool) : (s.skipIf c).timerCountdown = s.timerCountdown := by cases c <;> rfl
@[simp] theorem State.skipIf_free (s : State) (c : Bool) : (s.skipIf c).free = s.free := by cases c <;> rfl
@[simp] theorem State.skipIf_pc (s : State) (c : Bool) : (s.skipIf c).pc = if c then s.pc + 2 else s.pc := by cases c <;> rfl
@[simp] theorem State.reg_skipIf (s : State) (c : Bool) (r : Reg) : (s.skipIf c).reg r = s.reg r := by cases c <;> rfl
@[simp] theorem State.memRead_skipIf (s : State) (c : Bool) (a : Nat) : (s.skipIf c).memRead a = s.memRead a := by cases c <;> rfl

/-! ### Skips -/

/-- A skip changes `PC` alone, by 2 or not at all (R105). -/
theorem State.skipIf_eq (s : State) (c : Bool) : s.skipIf c = { s with pc := if c then s.pc + 2 else s.pc } := by
  cases c <;> rfl

end Sys2Proof.Machine
end

