-- ==== Sys2Proof/Laws/Memory.lean ====
section
/-!
SUPPORT. Memory: a byte read is the byte last written (spec/20_memory.md R55), a write touches no other address, and every
operation keeps the canonical form.
-/

namespace Sys2Proof.Machine

/-! ### Reading after writing -/

theorem Memory.lookup_put (m : Memory) (a a' : Nat) (v : Byte) :
    (m.put a v).lookup a' = if a' = a then some v else m.lookup a' := by
  induction m with
  | nil => simp [Memory.put, Memory.lookup]
  | cons cell rest ih =>
    obtain ⟨b, w⟩ := cell
    grind [Memory.put, Memory.lookup]

theorem Memory.lookup_erase (m : Memory) (a a' : Nat) :
    (m.erase a).lookup a' = if a' = a then none else m.lookup a' := by
  induction m with
  | nil => simp [Memory.erase, Memory.lookup]
  | cons cell rest ih =>
    obtain ⟨b, w⟩ := cell
    grind [Memory.erase, Memory.lookup]

/-- The byte written is the byte read back; every other address reads as before (R55). -/
@[simp] theorem Memory.read_write (m : Memory) (a a' : Nat) (v : Byte) :
    (m.write a v).read a' = if a' = a then v else m.read a' := by
  unfold Memory.write Memory.read
  split_ifs with h1 h2 h2 <;> simp [Memory.lookup_put, Memory.lookup_erase, h1, h2]

/-- Bytes written at ascending addresses read back in order; every other address reads as before. -/
theorem Memory.read_writeBytes (m : Memory) (base a : Nat) (bs : List Byte) :
    (m.writeBytes base bs).read a = if base ≤ a ∧ a < base + bs.length then bs.getD (a - base) 0 else m.read a := by
  induction bs generalizing m base with
  | nil => simp only [Memory.writeBytes, List.length_nil]; split_ifs <;> first | rfl | omega
  | cons b bs ih =>
    simp only [Memory.writeBytes, ih, Memory.read_write, List.length_cons]
    rcases Nat.lt_trichotomy a base with h | rfl | h
    · rw [if_neg (by omega), if_neg (by omega), if_neg (by omega)]
    · rw [if_neg (by omega), if_pos rfl, if_pos (by omega)]; simp
    · obtain ⟨k, rfl⟩ := Nat.exists_eq_add_of_lt h
      have h1 : base + k + 1 - (base + 1) = k := by omega
      have h2 : base + k + 1 - base = k + 1 := by omega
      rw [h1, h2, List.getD_cons_succ]
      split_ifs <;> first | rfl | omega

@[simp] theorem Memory.read_nil (a : Nat) : Memory.read [] a = Memory.initial a := rfl

@[simp] theorem Memory.readBytes_length (m : Memory) (base n : Nat) : (m.readBytes base n).length = n := by
  simp [Memory.readBytes]

theorem Memory.readBytes_getElem (m : Memory) (base n k : Nat) (h : k < (m.readBytes base n).length) :
    (m.readBytes base n)[k] = m.read (base + k) := by
  simp [Memory.readBytes]

/-- A byte exists exactly below 0x1000 (R52). -/
theorem State.memRead_of_lt {s : State} {a : Nat} (h : a < 0x1000) : s.memRead a = some (s.mem.read a) := by
  unfold State.memRead; exact if_pos h

theorem State.memRead_of_ge {s : State} {a : Nat} (h : 0x1000 ≤ a) : s.memRead a = none := by
  unfold State.memRead; exact if_neg (by simpa [Config.memSize] using h)

theorem State.memRead_eq_some {s : State} {a : Nat} {b : Byte} :
    s.memRead a = some b ↔ a < 0x1000 ∧ s.mem.read a = b := by
  rcases Nat.lt_or_ge a 0x1000 with h | h
  · simp [State.memRead_of_lt h, h]
  · simp [State.memRead_of_ge h, Nat.not_lt.mpr h]

theorem State.memRead_eq_none {s : State} {a : Nat} : s.memRead a = none ↔ 0x1000 ≤ a := by
  rcases Nat.lt_or_ge a 0x1000 with h | h
  · simp [State.memRead_of_lt h, h]
  · simp [State.memRead_of_ge h, h]

/-- The view of memory depends on the memory alone. -/
theorem State.memRead_congr {s t : State} {a : Nat} (h : t.mem.read a = s.mem.read a) : t.memRead a = s.memRead a := by
  unfold State.memRead; rw [h]

/-! ### The canonical form -/

theorem Memory.wfFrom_mono {lo lo' : Nat} {m : Memory} (h : m.wfFrom lo = true) (hle : lo' ≤ lo) : m.wfFrom lo' = true := by
  cases m with
  | nil => rfl
  | cons cell rest =>
    simp only [Memory.wfFrom, Bool.and_eq_true, decide_eq_true_eq] at h ⊢
    exact ⟨⟨⟨by omega, h.1.1.2⟩, h.1.2⟩, h.2⟩

theorem Memory.wfFrom_put {lo a : Nat} {v : Byte} {m : Memory} (h : m.wfFrom lo = true) (hlo : lo ≤ a)
    (ha : a < Config.memSize) (hv : v ≠ Memory.initial a) : (m.put a v).wfFrom lo = true := by
  induction m generalizing lo with
  | nil => simp [Memory.put, Memory.wfFrom, hlo, ha, hv]
  | cons cell rest ih =>
    obtain ⟨b, w⟩ := cell
    simp only [Memory.wfFrom, Bool.and_eq_true, decide_eq_true_eq] at h
    obtain ⟨⟨⟨h1, h2⟩, h3⟩, h4⟩ := h
    simp only [Memory.put]
    split_ifs with hlt heq
    · simp only [Memory.wfFrom, Bool.and_eq_true, decide_eq_true_eq]
      exact ⟨⟨⟨hlo, ha⟩, hv⟩, ⟨⟨hlt, h2⟩, h3⟩, h4⟩
    · subst heq
      simp only [Memory.wfFrom, Bool.and_eq_true, decide_eq_true_eq]
      exact ⟨⟨⟨hlo, ha⟩, hv⟩, h4⟩
    · simp only [Memory.wfFrom, Bool.and_eq_true, decide_eq_true_eq]
      exact ⟨⟨⟨h1, h2⟩, h3⟩, ih h4 (by omega)⟩

theorem Memory.wfFrom_erase {lo : Nat} {m : Memory} (a : Nat) (h : m.wfFrom lo = true) : (m.erase a).wfFrom lo = true := by
  induction m generalizing lo with
  | nil => rfl
  | cons cell rest ih =>
    obtain ⟨b, w⟩ := cell
    simp only [Memory.wfFrom, Bool.and_eq_true, decide_eq_true_eq] at h
    obtain ⟨⟨⟨h1, h2⟩, h3⟩, h4⟩ := h
    simp only [Memory.erase]
    split_ifs with heq
    · exact ih (Memory.wfFrom_mono h4 (by omega))
    · simp only [Memory.wfFrom, Bool.and_eq_true, decide_eq_true_eq]
      exact ⟨⟨⟨h1, h2⟩, h3⟩, ih h4⟩

/-- A write inside the address space keeps the canonical form. -/
theorem Memory.wf_write {m : Memory} {a : Nat} (v : Byte) (h : m.wf = true) (ha : a < Config.memSize) :
    (m.write a v).wf = true := by
  unfold Memory.write
  split_ifs with hv
  · exact Memory.wfFrom_erase a h
  · exact Memory.wfFrom_put h (Nat.zero_le a) ha hv

/-- So does a write of several bytes that all exist. -/
theorem Memory.wf_writeBytes {m : Memory} {base : Nat} (bs : List Byte) (h : m.wf = true)
    (hb : bs = [] ∨ base + bs.length ≤ Config.memSize) : (m.writeBytes base bs).wf = true := by
  induction bs generalizing m base with
  | nil => exact h
  | cons b bs ih =>
    simp only [List.length_cons, reduceCtorEq, false_or] at hb
    exact ih (Memory.wf_write b h (by omega)) (by omega)

/-- The memory of the reset state has the canonical form. -/
theorem State.reset_mem_wf : State.reset.mem.wf = true := rfl

/-! ### Range checks -/

/-- An access is in range exactly when it is empty or ends inside the space; else it reports its first address above 0xFFF. -/
theorem firstOutOfRange_eq_none {base n : Nat} : firstOutOfRange base n = none ↔ n = 0 ∨ base + n ≤ Config.memSize := by
  unfold firstOutOfRange
  split_ifs with h <;> simp [h]

theorem firstOutOfRange_eq_some {base n a : Nat} :
    firstOutOfRange base n = some a ↔ (n ≠ 0 ∧ Config.memSize < base + n) ∧ a = max base Config.memSize := by
  unfold firstOutOfRange
  split_ifs with h
  · simp only [false_iff, not_and]; omega
  · simp only [Option.some.injEq]; omega

/-- The existing part of an access lies inside the space. -/
theorem inRangeCount_le (base n : Nat) : inRangeCount base n = 0 ∨ base + inRangeCount base n ≤ Config.memSize := by
  unfold inRangeCount; omega

@[simp] theorem State.freeBytes_length (s : State) (n : Nat) : (s.freeBytes n).length = n := by
  simp [State.freeBytes]

end Sys2Proof.Machine
end

