-- ==== Sys2Proof/Laws/FrameBuffer.lean ====
section
/-!
SUPPORT. The frame-buffer controller and the sprite engine (spec/43_display.md R170, R172): a drawn sprite is an exclusive or
with its wrapped mask, and the flag says whether the mask met a set pixel.
-/

namespace Sys2Proof.Machine

/-- Coordinates wrap (R170). -/
theorem Frame.getPixel_mod (fb : Frame) (px py : Nat) : fb.getPixel (px % 64) (py % 32) = fb.getPixel px py := by
  simp [Frame.getPixel]

/-- Two coordinates that agree modulo the screen name the same cell. -/
theorem Frame.getPixel_congr (fb : Frame) {px py c r : Nat} (hx : px % 64 = c % 64) (hy : py % 32 = r % 32) :
    fb.getPixel px py = fb.getPixel c r := by
  rw [← Frame.getPixel_mod, hx, hy, Frame.getPixel_mod]

/-- `flip_pixel` reports the cell's value before (R170). -/
@[simp] theorem Frame.flipPixel_snd (fb : Frame) (px py : Nat) : (fb.flipPixel px py).2 = fb.getPixel px py := rfl

/-- `flip_pixel` changes its own cell and no other (R170). -/
theorem Frame.getPixel_flipPixel (fb : Frame) (px py c r : Nat) :
    (fb.flipPixel px py).1.getPixel c r = (fb.getPixel c r ^^ decide (px % 64 = c % 64 ∧ py % 32 = r % 32)) := by
  have hc : c % 64 < 64 := Nat.mod_lt _ (by decide)
  have hr : r % 32 < 32 := Nat.mod_lt _ (by decide)
  simp only [Frame.getPixel, Frame.flipPixel, Vector.getElem_set]
  by_cases hy : py % 32 = r % 32
  · by_cases hx : px % 64 = c % 64
    · simp [hx, hy]
    · simp [hx, hy]
  · simp [hy]

@[simp] theorem Frame.getPixel_cleared (px py : Nat) : Frame.cleared.getPixel px py = false := by
  simp [Frame.getPixel, Frame.cleared]

/-- Frames with the same pixels are equal. -/
theorem Frame.ext_getPixel {fb fb' : Frame} (h : ∀ c r, fb.getPixel c r = fb'.getPixel c r) : fb = fb' := by
  apply Vector.ext
  intro r hr
  apply Vector.ext
  intro c hc
  have := h c r
  simpa [Frame.getPixel, Nat.mod_eq_of_lt hc, Nat.mod_eq_of_lt hr] using this

@[simp] theorem bitsMsbFirst_length (b : Byte) : (bitsMsbFirst b).length = 8 := rfl

theorem bitsMsbFirst_getD (b : Byte) (k : Nat) : (bitsMsbFirst b).getD k false = (decide (k < 8) && b.getLsbD (7 - k)) := by
  by_cases h : k < 8
  · simp [bitsMsbFirst, List.getD_eq_getElem?_getD, h]
  · simp [bitsMsbFirst, List.getD_eq_getElem?_getD, h]

/-- Which cells a row of bits drawn at `(px, py)` flips. -/
def bitsCover (bits : List Bool) (px py c r : Nat) : Prop :=
  ∃ k, bits.getD k false = true ∧ (px + k) % 64 = c % 64 ∧ py % 32 = r % 32

theorem bitsCover_nil (px py c r : Nat) : ¬ bitsCover [] px py c r := by
  rintro ⟨k, h, -⟩; simp at h

theorem bitsCover_cons (bit : Bool) (bits : List Bool) (px py c r : Nat) :
    bitsCover (bit :: bits) px py c r ↔
      (bit = true ∧ px % 64 = c % 64 ∧ py % 32 = r % 32) ∨ bitsCover bits (px + 1) py c r := by
  constructor
  · rintro ⟨k, h, hx, hy⟩
    cases k with
    | zero => exact .inl ⟨by simpa using h, hx, hy⟩
    | succ k => exact .inr ⟨k, by simpa using h, by rw [← hx]; congr 1; omega, hy⟩
  · rintro (⟨h, hx, hy⟩ | ⟨k, h, hx, hy⟩)
    · exact ⟨0, by simpa using h, hx, hy⟩
    · exact ⟨k + 1, by simpa using h, by rw [← hx]; congr 1; omega, hy⟩

/-- One row: every cell is flipped exactly when a 1 bit covers it, and the flag is set exactly when a covered cell was set
before. A row of at most 64 bits covers no cell twice. -/
theorem drawBits_spec (bits : List Bool) (acc : Frame × Bool) (px py : Nat) (hlen : bits.length ≤ 64) :
    (∀ c r, (bitsCover bits px py c r → (drawBits acc px py bits).1.getPixel c r = !acc.1.getPixel c r) ∧
      (¬ bitsCover bits px py c r → (drawBits acc px py bits).1.getPixel c r = acc.1.getPixel c r)) ∧
    ((drawBits acc px py bits).2 = true ↔
      acc.2 = true ∨ ∃ c r, bitsCover bits px py c r ∧ acc.1.getPixel c r = true) := by
  induction bits generalizing acc px with
  | nil => simp [drawBits, bitsCover_nil]
  | cons bit bits ih =>
    simp only [List.length_cons] at hlen
    have away : ∀ c r, px % 64 = c % 64 → ¬ bitsCover bits (px + 1) py c r := by
      rintro c r hx ⟨k, hk, hx', -⟩
      have hkl : k < bits.length := by
        by_contra hge
        rw [List.getD_eq_getElem?_getD, List.getElem?_eq_none (by omega)] at hk
        simp at hk
      omega
    simp only [drawBits]
    cases bit with
    | false =>
      simp only [Bool.false_eq_true, if_false, bitsCover_cons, false_and, false_or]
      exact ih acc (px + 1) (by omega)
    | true =>
      obtain ⟨ihp, ihf⟩ := ih ((acc.1.flipPixel px py).1, acc.2 || (acc.1.flipPixel px py).2) (px + 1) (by omega)
      simp only [if_true, bitsCover_cons, true_and]
      constructor
      · intro c r
        obtain ⟨hin, hout⟩ := ihp c r
        constructor
        · rintro (⟨hx, hy⟩ | hc)
          · rw [hout (away c r hx), Frame.getPixel_flipPixel, decide_eq_true ⟨hx, hy⟩]; simp
          · have hx : px % 64 ≠ c % 64 := fun hx => away c r hx hc
            rw [hin hc, Frame.getPixel_flipPixel, decide_eq_false (fun h => hx h.1)]; simp
        · intro h
          rw [not_or] at h
          rw [hout h.2, Frame.getPixel_flipPixel, decide_eq_false h.1]; simp
      · rw [ihf, Bool.or_eq_true, Frame.flipPixel_snd]
        constructor
        · rintro ((h | h) | ⟨c, r, hc, hp⟩)
          · exact .inl h
          · exact .inr ⟨px, py, .inl ⟨rfl, rfl⟩, h⟩
          · have hx : px % 64 ≠ c % 64 := fun hx => away c r hx hc
            rw [Frame.getPixel_flipPixel, decide_eq_false (fun h => hx h.1), Bool.xor_false] at hp
            exact .inr ⟨c, r, .inr hc, hp⟩
        · rintro (h | ⟨c, r, ⟨hx, hy⟩ | hc, hp⟩)
          · exact .inl (.inl h)
          · exact .inl (.inr (by rw [Frame.getPixel_congr _ hx hy]; exact hp))
          · have hx : px % 64 ≠ c % 64 := fun hx => away c r hx hc
            exact .inr ⟨c, r, hc, by rw [Frame.getPixel_flipPixel, decide_eq_false (fun h => hx h.1), Bool.xor_false]; exact hp⟩

/-- Which cells a list of sprite bytes drawn at `(px, py)` flips: byte `row` at row `py + row`, its bit `7 - col` at column
`px + col` (R172). -/
def rowsCover (rows : List Byte) (px py c r : Nat) : Prop :=
  ∃ row col, row < rows.length ∧ col < 8 ∧ (rows.getD row 0).getLsbD (7 - col) = true ∧
    (px + col) % 64 = c % 64 ∧ (py + row) % 32 = r % 32

theorem rowsCover_nil (px py c r : Nat) : ¬ rowsCover [] px py c r := by
  rintro ⟨row, col, h, -⟩; simp at h

theorem rowsCover_cons (b : Byte) (rows : List Byte) (px py c r : Nat) :
    rowsCover (b :: rows) px py c r ↔ bitsCover (bitsMsbFirst b) px py c r ∨ rowsCover rows px (py + 1) c r := by
  constructor
  · rintro ⟨row, col, hrow, hcol, hb, hx, hy⟩
    cases row with
    | zero => exact .inl ⟨col, by rw [bitsMsbFirst_getD]; simpa [hcol] using hb, hx, hy⟩
    | succ row =>
      exact .inr ⟨row, col, by simpa using hrow, hcol, by simpa using hb, hx, by rw [← hy]; congr 1; omega⟩
  · rintro (⟨k, hk, hx, hy⟩ | ⟨row, col, hrow, hcol, hb, hx, hy⟩)
    · rw [bitsMsbFirst_getD, Bool.and_eq_true, decide_eq_true_eq] at hk
      exact ⟨0, k, by simp, hk.1, by simpa using hk.2, hx, hy⟩
    · exact ⟨row + 1, col, by simpa using hrow, hcol, by simpa using hb, hx, by rw [← hy]; congr 1; omega⟩

/-- The sprite engine: every cell is flipped exactly when the sprite covers it, and the flag is set exactly when a covered cell
was set before. At most 32 rows cover no cell twice (R172 (3)). -/
theorem drawRows_spec (rows : List Byte) (acc : Frame × Bool) (px py : Nat) (hlen : rows.length ≤ 32) :
    (∀ c r, (rowsCover rows px py c r → (drawRows acc px py rows).1.getPixel c r = !acc.1.getPixel c r) ∧
      (¬ rowsCover rows px py c r → (drawRows acc px py rows).1.getPixel c r = acc.1.getPixel c r)) ∧
    ((drawRows acc px py rows).2 = true ↔
      acc.2 = true ∨ ∃ c r, rowsCover rows px py c r ∧ acc.1.getPixel c r = true) := by
  induction rows generalizing acc py with
  | nil => simp [drawRows, rowsCover_nil]
  | cons b rows ih =>
    simp only [List.length_cons] at hlen
    have away : ∀ c r, bitsCover (bitsMsbFirst b) px py c r → ¬ rowsCover rows px (py + 1) c r := by
      rintro c r ⟨k, -, -, hy⟩ ⟨row, col, hrow, -, -, -, hy'⟩
      omega
    obtain ⟨bp, bf⟩ := drawBits_spec (bitsMsbFirst b) acc px py (by simp)
    obtain ⟨ihp, ihf⟩ := ih (drawBits acc px py (bitsMsbFirst b)) (py + 1) (by omega)
    simp only [drawRows, rowsCover_cons]
    constructor
    · intro c r
      constructor
      · rintro (h | h)
        · rw [(ihp c r).2 (away c r h), (bp c r).1 h]
        · rw [(ihp c r).1 h, (bp c r).2 (fun hb => away c r hb h)]
      · intro h
        rw [not_or] at h
        rw [(ihp c r).2 h.2, (bp c r).2 h.1]
    · rw [ihf, bf]
      constructor
      · rintro ((h | ⟨c, r, hc, hp⟩) | ⟨c, r, hc, hp⟩)
        · exact .inl h
        · exact .inr ⟨c, r, .inl hc, hp⟩
        · rw [(bp c r).2 (fun hb => away c r hb hc)] at hp
          exact .inr ⟨c, r, .inr hc, hp⟩
      · rintro (h | ⟨c, r, hc | hc, hp⟩)
        · exact .inl (.inl h)
        · exact .inl (.inr ⟨c, r, hc, hp⟩)
        · exact .inr ⟨c, r, hc, by rw [(bp c r).2 (fun hb => away c r hb hc)]; exact hp⟩

end Sys2Proof.Machine
end

