-- ==== Sys2Proof/Laws/Ops.lean ====
section
/-!
SUPPORT. What each shared operation can do, said once: a meaning built on it is read through its lemma here and the operation
is not unfolded again.
-/

namespace Sys2Proof.Machine

/-- `takeFault` is the state with the fault recorded. -/
@[simp] theorem takeFault_eq (f : Fault) (s : State) : takeFault f s = .next (s.raise f) := rfl

/-! ### Call stack -/

/-- A call below 16 entries pushes `PC` and jumps. -/
theorem callTo_of_lt (target : Word) (s : State) (h : s.sp.val < 16) :
    callTo target s = .next { s with
      stack := s.stack.set s.sp.val s.pc h, sp := ⟨s.sp.val + 1, by omega⟩, pc := target } := by
  simp [callTo, h]

/-- A call with all 16 entries in use only records the overflow (R213). -/
theorem callTo_of_full (target : Word) (s : State) (h : s.sp.val = 16) :
    callTo target s = .next (s.raise .stackOverflow) := by
  simp [callTo, h]

/-- A return with an entry in use pops it; the slots keep their values. -/
theorem returnFromCall_of_pos (s : State) (h : 0 < s.sp.val) :
    returnFromCall s = .next { s with
      sp := ⟨s.sp.val - 1, by omega⟩, pc := s.stack[s.sp.val - 1]'(by omega) } := by
  simp [returnFromCall, h]

/-- A return with no entry in use only records the underflow (R214). -/
theorem returnFromCall_of_empty (s : State) (h : s.sp.val = 0) :
    returnFromCall s = .next (s.raise .stackUnderflow) := by
  simp [returnFromCall, h]

/-- All that a call can do. -/
theorem callTo_cases {target : Word} {s t : State} (h : callTo target s = .next t) :
    (∃ hlt : s.sp.val < 16, t = { s with
      stack := s.stack.set s.sp.val s.pc hlt, sp := ⟨s.sp.val + 1, by omega⟩, pc := target }) ∨
    (s.sp.val = 16 ∧ t = s.raise .stackOverflow) := by
  rcases Nat.lt_or_ge s.sp.val 16 with hlt | hge
  · rw [callTo_of_lt target s hlt] at h
    exact .inl ⟨hlt, by cases h; rfl⟩
  · have hfull : s.sp.val = 16 := by omega
    rw [callTo_of_full target s hfull] at h
    exact .inr ⟨hfull, by cases h; rfl⟩

/-- All that a return can do. -/
theorem returnFromCall_cases {s t : State} (h : returnFromCall s = .next t) :
    (∃ hpos : 0 < s.sp.val, t = { s with
      sp := ⟨s.sp.val - 1, by omega⟩, pc := s.stack[s.sp.val - 1]'(by omega) }) ∨
    (s.sp.val = 0 ∧ t = s.raise .stackUnderflow) := by
  rcases Nat.eq_zero_or_pos s.sp.val with hz | hpos
  · rw [returnFromCall_of_empty s hz] at h
    exact .inr ⟨hz, by cases h; rfl⟩
  · rw [returnFromCall_of_pos s hpos] at h
    exact .inl ⟨hpos, by cases h; rfl⟩

/-! ### Transfers -/

/-- All that a store of several bytes can do: every byte lands, or the first address above 0xFFF is reported and the bytes in
range are free. -/
theorem storeBytes_cases {base : Nat} {bs : List Byte} {s t : State} (h : storeBytes base bs s = .next t) :
    ((bs.length = 0 ∨ base + bs.length ≤ Config.memSize) ∧ t = { s with mem := s.mem.writeBytes base bs }) ∨
    ((bs.length ≠ 0 ∧ Config.memSize < base + bs.length) ∧
      t = (s.scrambleMem base (inRangeCount base bs.length)).raise (.memoryOutOfRange (max base Config.memSize))) := by
  unfold storeBytes at h
  split at h
  · next hr => exact .inl ⟨firstOutOfRange_eq_none.mp hr, by cases h; rfl⟩
  · next a hr =>
    obtain ⟨hout, rfl⟩ := firstOutOfRange_eq_some.mp hr
    exact .inr ⟨hout, by cases h; rfl⟩

/-- A store whose bytes all exist answers the state with those bytes written. -/
theorem storeBytes_of_inRange {base : Nat} {bs : List Byte} (s : State) (h : base + bs.length ≤ Config.memSize) :
    storeBytes base bs s = .next { s with mem := s.mem.writeBytes base bs } := by
  rw [storeBytes, firstOutOfRange_eq_none.mpr (.inr h)]

/-- A store of a byte that does not exist reports it. -/
theorem storeBytes_of_outOfRange {base : Nat} {bs : List Byte} (s : State) (h0 : bs.length ≠ 0)
    (h : Config.memSize < base + bs.length) :
    storeBytes base bs s = .next ((s.scrambleMem base (inRangeCount base bs.length)).raise
      (.memoryOutOfRange (max base Config.memSize))) := by
  rw [storeBytes, firstOutOfRange_eq_some.mpr ⟨⟨h0, h⟩, rfl⟩]; rfl

/-- All that a register load can do. -/
theorem loadRegsFrom_cases {base : Nat} {x : Reg} {s t : State} (h : loadRegsFrom base x s = .next t) :
    (base + (x.val + 1) ≤ Config.memSize ∧
      t = s.setRegs (fun k => if k ≤ x then s.mem.read (base + k.val) else s.reg k)) ∨
    (Config.memSize < base + (x.val + 1) ∧
      t = (s.scrambleRegs (inRangeCount base (x.val + 1))).raise (.memoryOutOfRange (max base Config.memSize))) := by
  unfold loadRegsFrom at h
  split at h
  · next hr =>
    have := firstOutOfRange_eq_none.mp hr
    exact .inl ⟨by omega, by cases h; rfl⟩
  · next a hr =>
    obtain ⟨hout, rfl⟩ := firstOutOfRange_eq_some.mp hr
    exact .inr ⟨hout.2, by cases h; rfl⟩

/-- A register load whose bytes all exist answers the registers loaded. -/
theorem loadRegsFrom_of_inRange {base : Nat} {x : Reg} (s : State) (h : base + (x.val + 1) ≤ Config.memSize) :
    loadRegsFrom base x s = .next (s.setRegs fun k => if k ≤ x then s.mem.read (base + k.val) else s.reg k) := by
  rw [loadRegsFrom, firstOutOfRange_eq_none.mpr (.inr h)]

/-- A register load of a byte that does not exist reports it. -/
theorem loadRegsFrom_of_outOfRange {base : Nat} {x : Reg} (s : State) (h : Config.memSize < base + (x.val + 1)) :
    loadRegsFrom base x s = .next ((s.scrambleRegs (inRangeCount base (x.val + 1))).raise
      (.memoryOutOfRange (max base Config.memSize))) := by
  rw [loadRegsFrom, firstOutOfRange_eq_some.mpr ⟨⟨by omega, h⟩, rfl⟩]; rfl

/-- All that a draw can do. -/
theorem drawSprite_cases {base n px py : Nat} {s t : State} (h : drawSprite base n px py s = .next t) :
    ((n = 0 ∨ base + n ≤ Config.memSize) ∧
      t = State.setReg { s with fb := (drawRows (s.fb, false) px py (s.mem.readBytes base n)).1 } VF
        (if (drawRows (s.fb, false) px py (s.mem.readBytes base n)).2 then 1 else 0)) ∨
    ((n ≠ 0 ∧ Config.memSize < base + n) ∧
      t = (s.scrambleFrame base (inRangeCount base n) px py).raise (.memoryOutOfRange (max base Config.memSize))) := by
  unfold drawSprite at h
  split at h
  · next hr => exact .inl ⟨firstOutOfRange_eq_none.mp hr, by cases h; rfl⟩
  · next a hr =>
    obtain ⟨hout, rfl⟩ := firstOutOfRange_eq_some.mp hr
    exact .inr ⟨hout, by cases h; rfl⟩

/-- A draw whose bytes all exist answers the drawn frame and the collision flag. -/
theorem drawSprite_of_inRange {base n : Nat} (px py : Nat) (s : State) (h : n = 0 ∨ base + n ≤ Config.memSize) :
    drawSprite base n px py s = .next (State.setReg
      { s with fb := (drawRows (s.fb, false) px py (s.mem.readBytes base n)).1 } VF
      (if (drawRows (s.fb, false) px py (s.mem.readBytes base n)).2 then 1 else 0)) := by
  rw [drawSprite, firstOutOfRange_eq_none.mpr h]

/-- A draw of a byte that does not exist reports it. -/
theorem drawSprite_of_outOfRange {base n : Nat} (px py : Nat) (s : State) (h0 : n ≠ 0) (h : Config.memSize < base + n) :
    drawSprite base n px py s = .next ((s.scrambleFrame base (inRangeCount base n) px py).raise
      (.memoryOutOfRange (max base Config.memSize))) := by
  rw [drawSprite, firstOutOfRange_eq_some.mpr ⟨⟨h0, h⟩, rfl⟩]; rfl

/-! ### Key numbers -/

/-- A value up to 15 names its key. -/
theorem keyNumber_of_le {v : Byte} (h : v.toNat ≤ 15) : keyNumber v = some ⟨v.toNat, by omega⟩ := by
  simp [keyNumber, keyNumberWith, show v.toNat < 16 by omega]

/-- A value above 15 names none (D5). -/
theorem keyNumber_of_gt {v : Byte} (h : 15 < v.toNat) : keyNumber v = none := by
  simp [keyNumber, keyNumberWith, keyMask, show ¬ v.toNat < 16 by omega]

/-! ### Fetch and step -/

/-- A fetch below 0xFFF reads the big-endian word at `PC` (R70). -/
theorem State.fetch_of_inRange {s : State} (h : s.pc.toNat ≤ 0xFFE) :
    s.fetch = .ok (wordOfBytes (s.mem.read s.pc.toNat) (s.mem.read (s.pc.toNat + 1))) := by
  rw [State.fetch, firstOutOfRange_eq_none.mpr (.inr (by simp only [Config.memSize]; omega))]

/-- A fetch above reports its first address above 0xFFF (R212 (a)). -/
theorem State.fetch_of_outOfRange {s : State} (h : 0xFFE < s.pc.toNat) :
    s.fetch = .error (max s.pc.toNat 0x1000) := by
  rw [State.fetch, firstOutOfRange_eq_some.mpr ⟨⟨by decide, by simp only [Config.memSize]; omega⟩, rfl⟩]

theorem State.runState_of_running {s : State} (hf : s.fault = none) (hl : s.latch = none) : s.runState = .running := by
  simp [State.runState, hf, hl]

theorem State.runState_of_fault {s : State} {f : Fault} (hf : s.fault = some f) : s.runState = .halted f := by
  simp [State.runState, hf]

theorem State.runState_of_latch {s : State} {r : Reg} (hf : s.fault = none) (hl : s.latch = some r) :
    s.runState = .awaitingKey r := by
  simp [State.runState, hf, hl]

/-- All that a step can do, for any parameters. -/
theorem stepWith_cases {p : Params} {s t : State} (h : stepWith p s = .next t) :
    (t = s ∧ (s.fault ≠ none ∨ s.latch ≠ none)) ∨
    ((s.fault = none ∧ s.latch = none) ∧
      ((0xFFE < s.pc.toNat ∧ t = s.raise (.memoryOutOfRange (max s.pc.toNat 0x1000))) ∨
       (s.pc.toNat ≤ 0xFFE ∧ ∃ w, w = wordOfBytes (s.mem.read s.pc.toNat) (s.mem.read (s.pc.toNat + 1)) ∧
         ((∃ i, decodeWith p.strictXY0 w p.opmap = some i ∧ exec i s.advancePc = .next t) ∨
          (decodeWith p.strictXY0 w p.opmap = none ∧ t = s.advancePc.raise (.decodeFailure w)))))) := by
  unfold stepWith at h
  cases hf : s.fault with
  | some f =>
    rw [State.runState_of_fault hf] at h
    exact .inl ⟨by cases h; rfl, by simp⟩
  | none =>
    cases hl : s.latch with
    | some r =>
      rw [State.runState_of_latch hf hl] at h
      exact .inl ⟨by cases h; rfl, by simp⟩
    | none =>
      rw [State.runState_of_running hf hl] at h
      refine .inr ⟨⟨rfl, rfl⟩, ?_⟩
      rcases Nat.lt_or_ge 0xFFE s.pc.toNat with hp | hp
      · simp only [State.fetch_of_outOfRange hp, takeFault_eq, Host.Outcome.next.injEq] at h
        exact .inl ⟨hp, h.symm⟩
      · simp only [State.fetch_of_inRange hp] at h
        refine .inr ⟨hp, _, rfl, ?_⟩
        split at h
        · next i hi => exact .inl ⟨i, hi, h⟩
        · next he =>
          simp only [takeFault_eq, Host.Outcome.next.injEq] at h
          exact .inr ⟨he, h.symm⟩

/-- `step` is `stepWith` under the default parameters. -/
theorem step_eq (s : State) : step s = stepWith Params.default s := rfl

/-- A halted core does not step. -/
theorem stepWith_of_fault {p : Params} {s : State} {f : Fault} (hf : s.fault = some f) : stepWith p s = .next s := by
  rw [stepWith, State.runState_of_fault hf]

/-- A core that awaits a key does not step. -/
theorem stepWith_of_latch {p : Params} {s : State} {r : Reg} (hl : s.latch = some r) : stepWith p s = .next s := by
  cases hf : s.fault with
  | some f => exact stepWith_of_fault hf
  | none => rw [stepWith, State.runState_of_latch hf hl]

/-- A running step whose fetch fails records the first address that does not exist. -/
theorem stepWith_of_outOfRange {p : Params} {s : State} (hf : s.fault = none) (hl : s.latch = none)
    (h : 0xFFE < s.pc.toNat) : stepWith p s = .next (s.raise (.memoryOutOfRange (max s.pc.toNat 0x1000))) := by
  simp only [stepWith, State.runState_of_running hf hl, State.fetch_of_outOfRange h, takeFault_eq]

/-- What a running step does once its fetch is known, for any parameters. -/
theorem stepWith_of_fetch {p : Params} {s : State} {w : Word} (hf : s.fault = none) (hl : s.latch = none)
    (h : s.fetch = .ok w) :
    stepWith p s = match decodeWith p.strictXY0 w p.opmap with
      | some i => exec i s.advancePc
      | none => .next (s.advancePc.raise (.decodeFailure w)) := by
  simp only [stepWith, State.runState_of_running hf hl, h]; rfl

/-- All that a step can do. -/
theorem step_cases {s t : State} (h : step s = .next t) :
    (t = s ∧ (s.fault ≠ none ∨ s.latch ≠ none)) ∨
    ((s.fault = none ∧ s.latch = none) ∧
      ((0xFFE < s.pc.toNat ∧ t = s.raise (.memoryOutOfRange (max s.pc.toNat 0x1000))) ∨
       (s.pc.toNat ≤ 0xFFE ∧ ∃ w, w = wordOfBytes (s.mem.read s.pc.toNat) (s.mem.read (s.pc.toNat + 1)) ∧
         ((∃ i, decode w = .ok i ∧ exec i s.advancePc = .next t) ∨
          ((∃ e, decode w = .error e) ∧ t = s.advancePc.raise (.decodeFailure w)))))) := by
  rcases stepWith_cases h with h | ⟨hr, h | ⟨hp, w, hw, ⟨i, hi, h⟩ | ⟨hn, h⟩⟩⟩
  · exact .inl h
  · exact .inr ⟨hr, .inl h⟩
  · exact .inr ⟨hr, .inr ⟨hp, w, hw, .inl ⟨i, decode_eq_ok.mpr hi, h⟩⟩⟩
  · exact .inr ⟨hr, .inr ⟨hp, w, hw, .inr ⟨⟨_, decode_eq_error.mpr ⟨hn, rfl⟩⟩, h⟩⟩⟩

/-- A run of `n + 1` steps is a step and then a run of `n`, on any machine. -/
theorem core_run_succ (M : Host.Core) (n : Nat) (s t : M.State) (h : M.step s = .next t) :
    M.run (n + 1) s = M.run n t := by
  rw [Host.Core.run.eq_def]; simp only [h]

/-- A placed word is what the next step fetches. -/
theorem State.fetch_placeForFetch (s : State) (w : Word) : (s.placeForFetch w).fetch = .ok w := by
  have key : ∀ (pc : Word) (m : Memory), pc.toNat + 2 ≤ Config.memSize →
      wordOfBytes ((m.writeBytes pc.toNat [(bytesOfWord w).1, (bytesOfWord w).2]).read pc.toNat)
        ((m.writeBytes pc.toNat [(bytesOfWord w).1, (bytesOfWord w).2]).read (pc.toNat + 1)) = w := by
    intro pc m _
    rw [Memory.read_writeBytes, Memory.read_writeBytes, if_pos (by simp), if_pos (by simp)]
    simp
  unfold State.placeForFetch
  split_ifs with h
  · rw [State.fetch_of_inRange (by simp only [Config.memSize] at h ⊢; omega)]
    exact congrArg _ (key _ _ h)
  · rw [State.fetch_of_inRange (by simp [Config.progBase])]
    exact congrArg _ (key _ _ (by simp [Config.progBase, Config.memSize]))

/-- A step after placing a word runs what the word decodes to. -/
theorem step_placeForFetch (s : State) (w : Word) {i : Instr} (h : decode w = .ok i) :
    step (s.placeForFetch w) = exec i (s.placeForFetch w).advancePc := by
  have hd : decodeWith Params.default.strictXY0 w Params.default.opmap = some i := decode_eq_ok.mp h
  rw [step_eq, stepWith_of_fetch (w := w) rfl rfl (State.fetch_placeForFetch s w), hd]

end Sys2Proof.Machine
end

