-- ==== Sys2Proof/Laws/Events.lean ====
section
/-!
SUPPORT. What every instruction, step and event can do: all of them answer a next state; what a tick and a key event leave
alone; that the transfers keep the memory's canonical form.
-/

namespace Sys2Proof.Machine

/-! ### Canonical memory -/

/-- A transfer stopped out of range keeps the canonical form. -/
theorem State.scrambleMem_wf {s : State} (base n : Nat) (h : s.mem.wf = true) :
    (s.scrambleMem base (inRangeCount base n)).mem.wf = true := by
  show (s.mem.writeBytes base (s.freeBytes (inRangeCount base n))).wf = true
  rcases inRangeCount_le base n with h0 | h1
  · rw [h0]; exact h
  · exact Memory.wf_writeBytes _ h (.inr (by simpa using h1))

/-- A store of several bytes keeps the canonical form, whether or not it faults. -/
theorem storeBytes_wf {base : Nat} {bs : List Byte} {s t : State} (hs : s.mem.wf = true)
    (h : storeBytes base bs s = .next t) : t.mem.wf = true := by
  rcases storeBytes_cases h with ⟨h0 | hr, rfl⟩ | ⟨-, rfl⟩
  · rw [List.length_eq_zero_iff.mp h0]; exact hs
  · exact Memory.wf_writeBytes bs hs (.inr hr)
  · exact State.scrambleMem_wf base bs.length hs

/-- The loader keeps the canonical form, whatever the font. -/
theorem State.resetWith_mem_wf {rom : List Byte} (p : Params) (h : rom.length ≤ Config.romMax) :
    (State.resetWith rom p).mem.wf = true :=
  Memory.wf_writeBytes rom (Memory.wf_writeBytes p.font.toList rfl (.inr (by simp [Config.memSize])))
    (.inr (by simp only [Config.progBase, Config.memSize, Config.romMax] at *; omega))

/-- What a loaded memory holds: the image from 0x200, else the font below 0x050, else 0. -/
theorem State.resetWith_read {rom : List Byte} (p : Params) (a : Nat) :
    (State.resetWith rom p).mem.read a =
      if 0x200 ≤ a ∧ a < 0x200 + rom.length then rom.getD (a - 0x200) 0 else p.font.toList.getD a 0 := by
  have hl : p.font.toList.length = 80 := by simp
  have hf : font.length = 80 := by decide
  simp only [State.resetWith, State.reset, Memory.read_writeBytes, Memory.read_nil, Memory.initial, Config.progBase,
    hl, Nat.zero_le, Nat.zero_add, Nat.sub_zero, true_and]
  split
  · rfl
  · split
    · rfl
    · rw [List.getD_eq_default _ _ (by omega), List.getD_eq_default _ _ (by omega)]

/-- The default font is `font`. -/
@[simp] theorem Params.default_font : Params.default.font.toList = font := rfl

/-! ### Completion -/

/-- No instruction answers a fault or a refusal. -/
theorem exec_answers_next (i : Instr) (s : State) : ∃ t, exec i s = .next t := by
  cases i
  case skp x => simp only [exec, execSkp]; split <;> exact ⟨_, rfl⟩
  case sknp x => simp only [exec, execSknp]; split <;> exact ⟨_, rfl⟩
  case ret => simp only [exec, execRet, returnFromCall]; split <;> exact ⟨_, rfl⟩
  case call => simp only [exec, execCall, callTo]; split <;> exact ⟨_, rfl⟩
  case sys => simp only [exec, execSys, callTo]; split <;> exact ⟨_, rfl⟩
  case ldB => simp only [exec, execLdB, storeBytes]; split <;> exact ⟨_, rfl⟩
  case stRegs => simp only [exec, execStRegs, storeBytes]; split <;> exact ⟨_, rfl⟩
  case ldRegs => simp only [exec, execLdRegs, loadRegsFrom]; split <;> exact ⟨_, rfl⟩
  case drw => simp only [exec, execDrw, drawSprite]; split <;> exact ⟨_, rfl⟩
  all_goals exact ⟨_, rfl⟩

/-- No step answers a fault or a refusal, whatever the parameters. -/
theorem stepWith_answers_next (p : Params) (s : State) : ∃ t, stepWith p s = .next t := by
  unfold stepWith
  split
  · exact ⟨_, rfl⟩
  · exact ⟨_, rfl⟩
  · split
    · exact ⟨_, rfl⟩
    · split
      · exact exec_answers_next _ _
      · exact ⟨_, rfl⟩

/-! ### Ticks and key events -/

/-- A tick touches the two timers only. -/
theorem tick_frame (s : State) : tick s = { s with dt := (tick s).dt, st := (tick s).st } := by
  unfold tick; split <;> rfl

/-- All that a key event can do. -/
theorem keyEvent_cases (k : Key) (pressed : Bool) (s : State) :
    (s.fault ≠ none ∧ keyEvent k pressed s = s) ∨
    (s.fault = none ∧ (pressed = false ∨ s.latch = none) ∧ keyEvent k pressed s = s.setKey k pressed) ∨
    (s.fault = none ∧ pressed = true ∧ ∃ r, s.latch = some r ∧
      keyEvent k pressed s = { (s.setKey k true).setReg r (BitVec.ofNat 8 k.val) with latch := none }) := by
  unfold keyEvent
  cases hf : s.fault with
  | some f => exact .inl ⟨by simp, rfl⟩
  | none =>
    right
    cases pressed with
    | false => exact .inl ⟨rfl, .inl rfl, rfl⟩
    | true =>
      cases hl : s.latch with
      | none =>
        have h : (s.setKey k true).latch = none := hl
        exact .inl ⟨rfl, .inr rfl, by simp [State.resolveLatch, h]⟩
      | some r =>
        have h : (s.setKey k true).latch = some r := hl
        exact .inr ⟨rfl, rfl, r, rfl, by simp [State.resolveLatch, h]⟩

end Sys2Proof.Machine
end

