-- ==== Sys2Proof/Laws/PerInstr.lean ====
section
/-!
SUPPORT. A statement about every instruction as syntax, one lemma per constructor. Family `CanonicalWord`: the encoder sets no
bit that the operation ignores (spec/30_encoding.md R80, R81), so of the words that decode to an instruction it picks the one
with those bits zero.
-/

namespace Sys2Proof.Laws.CanonicalWord

/-- The word of `i` has every ignored bit 0. -/
def Statement (i : Instr) : Prop := encode i &&& usedBits i = encode i

/-- Where no bit is ignored there is nothing to show. -/
theorem of_all_used (w : Word) : w &&& 0xFFFF#16 = w := by
  rw [show (0xFFFF#16 : Word) = BitVec.allOnes 16 from rfl, BitVec.and_allOnes]

theorem cls : Statement .cls := of_all_used _
theorem ret : Statement .ret := of_all_used _
theorem sys (nnn : Addr12) : Statement (.sys nnn) := of_all_used _
theorem jp (nnn : Addr12) : Statement (.jp nnn) := of_all_used _
theorem call (nnn : Addr12) : Statement (.call nnn) := of_all_used _
theorem seImm (x : Reg) (nn : Byte) : Statement (.seImm x nn) := of_all_used _
theorem sneImm (x : Reg) (nn : Byte) : Statement (.sneImm x nn) := of_all_used _
theorem seReg (x y : Reg) : Statement (.seReg x y) := by
  unfold Statement; revert x y; decide
theorem sneReg (x y : Reg) : Statement (.sneReg x y) := by
  unfold Statement; revert x y; decide
theorem ldImm (x : Reg) (nn : Byte) : Statement (.ldImm x nn) := of_all_used _
theorem addImm (x : Reg) (nn : Byte) : Statement (.addImm x nn) := of_all_used _
theorem ldReg (x y : Reg) : Statement (.ldReg x y) := of_all_used _
theorem orReg (x y : Reg) : Statement (.orReg x y) := of_all_used _
theorem andReg (x y : Reg) : Statement (.andReg x y) := of_all_used _
theorem xorReg (x y : Reg) : Statement (.xorReg x y) := of_all_used _
theorem addReg (x y : Reg) : Statement (.addReg x y) := of_all_used _
theorem sub (x y : Reg) : Statement (.sub x y) := of_all_used _
theorem subn (x y : Reg) : Statement (.subn x y) := of_all_used _
theorem shr (x : Reg) : Statement (.shr x) := by
  unfold Statement; revert x; decide
theorem shl (x : Reg) : Statement (.shl x) := by
  unfold Statement; revert x; decide
theorem ldI (nnn : Addr12) : Statement (.ldI nnn) := of_all_used _
theorem jpV0 (nnn : Addr12) : Statement (.jpV0 nnn) := of_all_used _
theorem rnd (x : Reg) (nn : Byte) : Statement (.rnd x nn) := of_all_used _
theorem drw (x y : Reg) (n : Nibble) : Statement (.drw x y n) := of_all_used _
theorem skp (x : Reg) : Statement (.skp x) := of_all_used _
theorem sknp (x : Reg) : Statement (.sknp x) := of_all_used _
theorem ldVxDt (x : Reg) : Statement (.ldVxDt x) := of_all_used _
theorem ldVxK (x : Reg) : Statement (.ldVxK x) := of_all_used _
theorem ldDtVx (x : Reg) : Statement (.ldDtVx x) := of_all_used _
theorem ldStVx (x : Reg) : Statement (.ldStVx x) := of_all_used _
theorem addI (x : Reg) : Statement (.addI x) := of_all_used _
theorem ldF (x : Reg) : Statement (.ldF x) := of_all_used _
theorem ldB (x : Reg) : Statement (.ldB x) := of_all_used _
theorem stRegs (x : Reg) : Statement (.stRegs x) := of_all_used _
theorem ldRegs (x : Reg) : Statement (.ldRegs x) := of_all_used _

end Sys2Proof.Laws.CanonicalWord
end

