-- ==== Sys2Proof/Laws/Scheduler.lean ====
section
/-!
SUPPORT. The scheduler's loops: `iterationsDue` counts the iterations of a loop that adds a positive period until the
countdown is positive; what the timer loop leaves alone; the terms of the state read as reals; the state and its clock.
-/

namespace Sys2Proof.Machine

theorem timerPeriod_eq : Config.timerPeriod = 1 / 60 := by
  simp [Config.timerPeriod, Rat.mkRat_eq_div]

/-- The timer loop touches the timers and the timer countdown only. -/
theorem timerLoop_frame {K : Type} (A : TimeArith K) (n : Nat) (c : Clock K) (s : State) :
    timerLoop A n c s =
      ({ s with dt := (timerLoop A n c s).1.dt, st := (timerLoop A n c s).1.st },
        { c with timer := (timerLoop A n c s).2.timer }) := by
  induction n generalizing c s with
  | zero => rfl
  | succ n ih =>
    rw [timerLoop]; split
    · rfl
    · rw [ih, tick_frame]; rfl

/-! ### The arithmetic of a field -/

section AnyField

variable {K : Type} [Field K] [LinearOrder K] [FloorRing K]

@[simp] theorem TimeArith.field_add (a b : K) : (TimeArith.field K).add a b = a + b := rfl
@[simp] theorem TimeArith.field_sub (a b : K) : (TimeArith.field K).sub a b = a - b := rfl
@[simp] theorem TimeArith.field_div (a b : K) : (TimeArith.field K).div a b = a / b := rfl
@[simp] theorem TimeArith.field_one : (TimeArith.field K).one = 1 := rfl
@[simp] theorem TimeArith.field_sixtieth : (TimeArith.field K).sixtieth = 1 / 60 := rfl
@[simp] theorem TimeArith.field_isPos (a : K) : (TimeArith.field K).isPos a = decide (0 < a) := rfl
@[simp] theorem TimeArith.field_isNonneg (a : K) : (TimeArith.field K).isNonneg a = decide (0 ≤ a) := rfl
@[simp] theorem TimeArith.field_iterations (a b : K) : (TimeArith.field K).iterations a b = iterationsDue a b := rfl

/-- A positive countdown makes no iteration due. -/
theorem iterationsDue_of_pos {c p : K} (h : 0 < c) : iterationsDue c p = 0 := by
  simp [iterationsDue, not_le.mpr h]

variable [IsStrictOrderedRing K]

/-- Otherwise one is due, and as many more as after it. -/
theorem iterationsDue_of_nonpos {c p : K} (hp : 0 < p) (h : c ≤ 0) :
    iterationsDue c p = iterationsDue (c + p) p + 1 := by
  have e : -c / p = -(c + p) / p + 1 := by field_simp; ring
  have fl : ⌊-c / p⌋ = ⌊-(c + p) / p⌋ + 1 := by
    rw [e]; exact Int.floor_add_one (-(c + p) / p)
  rcases lt_or_ge 0 (c + p) with h1 | h1
  · rw [iterationsDue_of_pos h1, iterationsDue, if_pos h]
    have h0 : 0 ≤ ⌊-c / p⌋ := Int.floor_nonneg.mpr (div_nonneg (by linarith) hp.le)
    have h2 : ⌊-c / p⌋ < 1 := by
      rw [Int.floor_lt, div_lt_iff₀ hp]; push_cast; linarith
    omega
  · have h0 : 0 ≤ ⌊-(c + p) / p⌋ := Int.floor_nonneg.mpr (div_nonneg (by linarith) hp.le)
    rw [iterationsDue, iterationsDue, if_pos h, if_pos h1, fl]; omega

end AnyField

/-! ### The terms of the state, read as real numbers -/

/-- The iterations due are the same for a rational countdown and for the real number it is. -/
theorem iterationsDue_cast (a b : Rat) : iterationsDue (a : ℝ) (b : ℝ) = iterationsDue a b := by
  have e : -(a : ℝ) / b = ((-a / b : Rat) : ℝ) := by push_cast; rfl
  simp only [iterationsDue, Rat.cast_nonpos, e, Rat.floor_cast]

section Terms

variable (ρ : RealValues)

@[simp] theorem RealTerm.value_rat (q : Rat) : (RealTerm.rat q).value ρ = q := rfl
@[simp] theorem RealTerm.value_clockPeriod : RealTerm.clockPeriod.value ρ = ρ.clockPeriod := rfl
@[simp] theorem RealTerm.value_host (k : Nat) : (RealTerm.host k).value ρ = ρ.host k := rfl

@[simp] theorem RealTerm.value_plus (a b : RealTerm) : (a.plus b).value ρ = a.value ρ + b.value ρ := by
  unfold RealTerm.plus; split
  · exact Rat.cast_add _ _
  · rfl

@[simp] theorem RealTerm.value_minus (a b : RealTerm) : (a.minus b).value ρ = a.value ρ - b.value ρ := by
  unfold RealTerm.minus; split
  · exact Rat.cast_sub _ _
  · rfl

@[simp] theorem RealTerm.value_over (a b : RealTerm) : (a.over b).value ρ = a.value ρ / b.value ρ := by
  unfold RealTerm.over; split
  · exact Rat.cast_div _ _
  · rfl

/-- A comparison of terms is that of their values. -/
theorem RealTerm.isPos_eq (a : RealTerm) : a.isPos ρ = decide (0 < a.value ρ) := by
  unfold RealTerm.isPos; split
  · simp
  · rfl

theorem RealTerm.isNonneg_eq (a : RealTerm) : a.isNonneg ρ = decide (0 ≤ a.value ρ) := by
  unfold RealTerm.isNonneg; split
  · simp
  · rfl

theorem RealTerm.iterations_eq (a b : RealTerm) : a.iterations ρ b = iterationsDue (a.value ρ) (b.value ρ) := by
  unfold RealTerm.iterations; split
  · exact (iterationsDue_cast _ _).symm
  · rfl

/-- The timer period of the terms is a sixtieth. -/
theorem TimeArith.terms_sixtieth_value : (TimeArith.terms ρ).sixtieth.value ρ = 1 / 60 := by
  show ((Config.timerPeriod : Rat) : ℝ) = 1 / 60
  rw [timerPeriod_eq]; norm_num

/-- Reading a clock of terms as real numbers commutes with each of its updates. -/
theorem Clock.map_elapse (c : Clock RealTerm) (dt : RealTerm) :
    (c.elapse (.terms ρ) dt).map (RealTerm.value ρ) = (c.map (RealTerm.value ρ)).elapse (.field ℝ) (dt.value ρ) := by
  simp [Clock.map, Clock.elapse, TimeArith.terms]

theorem Clock.map_rearmCpu (c : Clock RealTerm) :
    (c.rearmCpu (.terms ρ)).map (RealTerm.value ρ) = (c.map (RealTerm.value ρ)).rearmCpu (.field ℝ) := by
  simp [Clock.map, Clock.rearmCpu, TimeArith.terms]

theorem Clock.map_rearmTimer (c : Clock RealTerm) :
    (c.rearmTimer (.terms ρ)).map (RealTerm.value ρ) = (c.map (RealTerm.value ρ)).rearmTimer (.field ℝ) := by
  have h := TimeArith.terms_sixtieth_value ρ
  simp only [TimeArith.terms] at h
  simp [Clock.map, Clock.rearmTimer, TimeArith.terms, h]

end Terms

/-! ### The clock of the state -/

/-- Putting a state's own clock back changes nothing. -/
@[simp] theorem State.withClock_clock (s : State) : s.withClock s.clock = s := rfl

/-- The clock put into a state is the one read back. -/
@[simp] theorem State.clock_withClock (s : State) (c : Clock RealTerm) : (s.withClock c).clock = c := rfl

/-- No instruction touches the clock (R33). -/
theorem exec_clock {i : Instr} {s t : State} (h : exec i s = .next t) : t.clock = s.clock := by
  cases i
  case drw => rcases drawSprite_cases h with ⟨-, rfl⟩ | ⟨-, rfl⟩ <;> rfl
  case ret => rcases returnFromCall_cases h with ⟨_, rfl⟩ | ⟨-, rfl⟩ <;> rfl
  case call => rcases callTo_cases h with ⟨_, rfl⟩ | ⟨-, rfl⟩ <;> rfl
  case sys => rcases callTo_cases h with ⟨_, rfl⟩ | ⟨-, rfl⟩ <;> rfl
  case ldB => rcases storeBytes_cases h with ⟨-, rfl⟩ | ⟨-, rfl⟩ <;> rfl
  case stRegs => rcases storeBytes_cases h with ⟨-, rfl⟩ | ⟨-, rfl⟩ <;> rfl
  case ldRegs => rcases loadRegsFrom_cases h with ⟨-, rfl⟩ | ⟨-, rfl⟩ <;> rfl
  case skp => simp only [exec, execSkp] at h; split at h <;> cases h <;> simp [State.clock]
  case sknp => simp only [exec, execSknp] at h; split at h <;> cases h <;> simp [State.clock]
  all_goals (cases h; simp [State.clock])

/-- Nor does a step. -/
theorem stepWith_clock {p : Params} {s t : State} (h : stepWith p s = .next t) : t.clock = s.clock := by
  rcases stepWith_cases h with ⟨rfl, -⟩ | ⟨-, ⟨-, rfl⟩ | ⟨-, _, -, ⟨_, -, h⟩ | ⟨-, rfl⟩⟩⟩
  · rfl
  · rfl
  · exact exec_clock (s := s.advancePc) h
  · rfl

end Sys2Proof.Machine
end

