-- ==== Sys2Proof/Tests/Slice0.lean ====
section
/-!
SUPPORT. Tests. Expected results are those of spec/95_test_vectors.md (named by their ids) or worked out by hand from the rules.
`witness_<statement>` shows a concrete state and operands that meet the hypotheses of `Obligations.<statement>`.
-/

namespace Sys2Proof.Tests

open Sys2Proof.Machine

/-! ### Helpers: small states -/

/-- `V[r] <- b` -/
abbrev withV (s : State) (r : Reg) (b : Byte) : State := s.setReg r b

/-- The reset state with `w` as the word at 0x200. -/
abbrev rom1 (w : Nat) : State := State.reset.withFetchWord 16 w

/-- One step, or the same state where `step` answers no next state. -/
def stepped (s : State) : State :=
  match step s with
  | .next t => t
  | _ => s

/-- One instruction, or the same state where `exec` answers no next state. -/
def executed (i : Instr) (s : State) : State :=
  match exec i s with
  | .next t => t
  | _ => s

/-! ### Well-formedness -/

theorem test_wf_sys_is_not_cls : (Instr.sys 0x0E0).wf = false := by decide
theorem test_wf_sys_is_not_ret : (Instr.sys 0x0EE).wf = false := by decide
theorem test_wf_sys_near_misses : (Instr.sys 0x0E1).wf = true ∧ (Instr.sys 0x1EE).wf = true := by decide
theorem test_wf_others : (Instr.jp 0x0E0).wf = true ∧ (Instr.drw 15 15 0).wf = true := by decide

/-! ### Decoding: every constructor, by a word written out from its pattern in R88 -/

theorem test_decode_cls : decode 0b0000_0000_1110_0000 = .ok .cls := by decide
theorem test_decode_ret : decode 0b0000_0000_1110_1110 = .ok .ret := by decide
theorem test_decode_sys : decode 0b0000_0001_1110_0000 = .ok (.sys 0x1E0) := by decide
theorem test_decode_jp : decode 0b0001_0010_0000_0101 = .ok (.jp 0x205) := by decide
theorem test_decode_call : decode 0b0010_1010_1011_1100 = .ok (.call 0xABC) := by decide
theorem test_decode_seImm : decode 0b0011_1010_0011_1100 = .ok (.seImm 0xA 0x3C) := by decide
theorem test_decode_sneImm : decode 0b0100_1010_0011_1100 = .ok (.sneImm 0xA 0x3C) := by decide
theorem test_decode_seReg : decode 0b0101_1010_1011_0111 = .ok (.seReg 0xA 0xB) := by decide
theorem test_decode_sneReg : decode 0b1001_1010_1011_0001 = .ok (.sneReg 0xA 0xB) := by decide
theorem test_decode_ldImm : decode 0b0110_1010_0011_1100 = .ok (.ldImm 0xA 0x3C) := by decide
theorem test_decode_addImm : decode 0b0111_1010_0000_0101 = .ok (.addImm 0xA 0x05) := by decide
theorem test_decode_ldReg : decode 0b1000_1010_1011_0000 = .ok (.ldReg 0xA 0xB) := by decide
theorem test_decode_orReg : decode 0b1000_1010_1011_0001 = .ok (.orReg 0xA 0xB) := by decide
theorem test_decode_andReg : decode 0b1000_1010_1011_0010 = .ok (.andReg 0xA 0xB) := by decide
theorem test_decode_xorReg : decode 0b1000_1010_1011_0011 = .ok (.xorReg 0xA 0xB) := by decide
theorem test_decode_addReg : decode 0b1000_1010_1011_0100 = .ok (.addReg 0xA 0xB) := by decide
theorem test_decode_sub : decode 0b1000_1010_1011_0101 = .ok (.sub 0xA 0xB) := by decide
theorem test_decode_shr : decode 0b1000_1010_1011_0110 = .ok (.shr 0xA) := by decide
theorem test_decode_subn : decode 0b1000_1010_1011_0111 = .ok (.subn 0xA 0xB) := by decide
theorem test_decode_shl : decode 0b1000_1010_1011_1110 = .ok (.shl 0xA) := by decide
theorem test_decode_ldI : decode 0b1010_1011_1100_1101 = .ok (.ldI 0xBCD) := by decide
theorem test_decode_jpV0 : decode 0b1011_0001_0010_0011 = .ok (.jpV0 0x123) := by decide
theorem test_decode_rnd : decode 0b1100_0011_1111_0000 = .ok (.rnd 0x3 0xF0) := by decide
theorem test_decode_drw : decode 0b1101_0001_0010_0101 = .ok (.drw 0x1 0x2 0x5) := by decide
theorem test_decode_skp : decode 0b1110_0001_1001_1110 = .ok (.skp 0x1) := by decide
theorem test_decode_sknp : decode 0b1110_0001_1010_0001 = .ok (.sknp 0x1) := by decide
theorem test_decode_ldVxDt : decode 0b1111_0001_0000_0111 = .ok (.ldVxDt 0x1) := by decide
theorem test_decode_ldVxK : decode 0b1111_1000_0000_1010 = .ok (.ldVxK 0x8) := by decide
theorem test_decode_ldDtVx : decode 0b1111_0001_0001_0101 = .ok (.ldDtVx 0x1) := by decide
theorem test_decode_ldStVx : decode 0b1111_0001_0001_1000 = .ok (.ldStVx 0x1) := by decide
theorem test_decode_addI : decode 0b1111_0001_0001_1110 = .ok (.addI 0x1) := by decide
theorem test_decode_ldF : decode 0b1111_0001_0010_1001 = .ok (.ldF 0x1) := by decide
theorem test_decode_ldB : decode 0b1111_0001_0011_0011 = .ok (.ldB 0x1) := by decide
theorem test_decode_stRegs : decode 0b1111_0001_0101_0101 = .ok (.stRegs 0x1) := by decide
theorem test_decode_ldRegs : decode 0b1111_0001_0110_0101 = .ok (.ldRegs 0x1) := by decide

/-- V-ENC-4, V-ENC-5: zero memory and the near misses of `CLS` and `RET` are `SYS`. -/
theorem test_decode_sys_words : decode 0x0000 = .ok (.sys 0) ∧ decode 0x00EF = .ok (.sys 0x0EF) ∧
    decode 0x0FFF = .ok (.sys 0xFFF) := by decide

/-- V-ENC-14: the seven undefined selectors of top nibble 8. -/
theorem test_decode_illegal_alu :
    ([0x8AB8, 0x8AB9, 0x8ABA, 0x8ABB, 0x8ABC, 0x8ABD, 0x8ABF] : List Word).all
      (fun w => decide (decode w = .error (.decodeFailure w))) = true := by decide

/-- V-ENC-17, V-ENC-19. -/
theorem test_decode_illegal_selectors :
    ([0xE100, 0xE19F, 0xE1A0, 0xE1FF, 0xF000, 0xF130, 0xF175, 0xF185, 0xFFF7, 0xFF00] : List Word).all
      (fun w => decide (decode w = .error (.decodeFailure w))) = true := by decide

/-- The compare skips under `STRICT_XY0 = true` (after V-ENC-20). -/
theorem test_decode_strict : decodeWith true 0x5AB7 = none ∧ decodeWith true 0x9AB1 = none ∧
    decodeWith true 0x5AB0 = some (.seReg 0xA 0xB) := by decide

/-- The words of R88 for a few encodings, ignored bits 0. -/
theorem test_encode : encode (.call 0xABC) = 0x2ABC ∧ encode (.shr 0xA) = 0x8A06 ∧ encode (.drw 1 2 5) = 0xD125 ∧
    encode (.stRegs 1) = 0xF155 ∧ encodeBytes (.ldImm 0xA 0x3C) = [0x6A, 0x3C] := by decide

theorem test_decodeBytes : decodeBytes [0x12, 0x05, 0xFF] = .ok (.jp 0x205, [0xFF]) ∧
    decodeBytes [0x12] = .error .truncated := by decide

theorem test_decodeTableWord : decodeTableWord 16 0x6A3C = some (.ldImm 0xA 0x3C) ∧
    decodeTableWord 16 0x8128 = none := by decide

/-- The first byte of the word lies at the lower address (R54). -/
theorem test_withFetchWord : (rom1 0x6A3C).memRead 0x200 = some 0x6A ∧ (rom1 0x6A3C).memRead 0x201 = some 0x3C := by
  decide

/-! ### One instruction, one step -/

/-- V-DSP-1: every pixel is unset and `VF` stays. -/
theorem test_cls :
    let s := withV (rom1 0x00E0) VF 1
    let t := stepped { s with fb := ((s.fb.flipPixel 3 4).1.flipPixel 63 31).1 }
    t.fb = Frame.cleared ∧ t.reg VF = 1 ∧ t.pc = 0x202 := by decide

/-- V-CTL-3. -/
theorem test_ret :
    let t := stepped { rom1 0x00EE with sp := 1, stack := State.reset.stack.set 0 0x202 }
    t.sp = 0 ∧ t.pc = 0x202 ∧ t.stack[0] = 0x202 := by decide
/-- V-CTL-4. -/
theorem test_ret_underflow :
    (stepped (rom1 0x00EE)).fault = some .stackUnderflow ∧ (stepped (rom1 0x00EE)).pc = 0x202 := by decide
/-- V-CTL-6. -/
theorem test_sys :
    let t := stepped (rom1 0x0300)
    t.stack[0] = 0x202 ∧ t.sp = 1 ∧ t.pc = 0x300 := by decide
/-- V-CTL-13: with no program loaded the first step runs `SYS 0x000`; the next meets the font's word 0xF090. -/
theorem test_empty_rom :
    let t := stepped (stepped State.reset)
    t.stack[0] = 0x202 ∧ t.sp = 1 ∧ t.fault = some (.decodeFailure 0xF090) ∧ t.pc = 0x002 := by decide
/-- V-CTL-1. -/
theorem test_jp : (stepped (rom1 0x12A0)).pc = 0x2A0 := by decide
/-- V-CTL-2. -/
theorem test_call :
    let t := stepped (rom1 0x2300)
    t.stack[0] = 0x202 ∧ t.sp = 1 ∧ t.pc = 0x300 := by decide
/-- V-CTL-5. -/
theorem test_call_overflow :
    let t := stepped { rom1 0x2300 with sp := 16 }
    t.fault = some .stackOverflow ∧ t.pc = 0x202 ∧ t.sp = 16 := by decide
/-- V-CTL-8. -/
theorem test_seImm : (stepped (withV (rom1 0x3133) 1 0x33)).pc = 0x204 ∧
    (stepped (withV (rom1 0x3133) 1 0x32)).pc = 0x202 := by decide
/-- V-CTL-9. -/
theorem test_sneImm : (stepped (withV (rom1 0x4133) 1 0x33)).pc = 0x202 ∧
    (stepped (withV (rom1 0x4133) 1 0x32)).pc = 0x204 := by decide
/-- V-CTL-10. -/
theorem test_seReg : (stepped (withV (withV (rom1 0x5120) 1 7) 2 7)).pc = 0x204 ∧
    (stepped (withV (withV (rom1 0x5120) 1 7) 2 8)).pc = 0x202 := by decide
/-- V-CTL-11. -/
theorem test_sneReg : (stepped (withV (withV (rom1 0x9120) 1 7) 2 7)).pc = 0x202 ∧
    (stepped (withV (withV (rom1 0x9120) 1 7) 2 8)).pc = 0x204 := by decide
/-- V-CTL-14, V-CTL-15: no reduction to 12 bits, then a fetch that faults with `PC` as it was. -/
theorem test_jpV0 : (stepped (withV (rom1 0xB300) 0 0x04)).pc = 0x304 ∧
    (stepped (withV (rom1 0xBFFF) 0 0xFF)).pc = 0x10FE := by decide
theorem test_jpV0_then_fetch :
    let t := stepped (stepped (withV (rom1 0xBFFF) 0 0xFF))
    t.fault = some (.memoryOutOfRange 0x10FE) ∧ t.pc = 0x10FE := by decide
/-- V-CTL-16. -/
theorem test_fetch_at_the_end :
    let t := stepped { State.reset with pc := 0xFFF }
    t.fault = some (.memoryOutOfRange 0x1000) ∧ t.pc = 0xFFF := by decide

/-- V-ALU-1. -/
theorem test_ldImm : (stepped (rom1 0x65AB)).reg 5 = 0xAB := by decide
/-- V-ALU-2, V-ALU-3. -/
theorem test_addImm :
    let t := stepped (withV (withV (rom1 0x7501) 5 0xFF) VF 7)
    t.reg 5 = 0 ∧ t.reg VF = 7 := by decide
theorem test_addImm_vf : (stepped (withV (rom1 0x7F02) VF 1)).reg VF = 3 := by decide
/-- V-ALU-4. -/
theorem test_ldReg : (stepped (withV (rom1 0x8120) 2 0x55)).reg 1 = 0x55 := by decide
/-- V-ALU-5. -/
theorem test_orReg :
    let t := stepped (withV (withV (withV (rom1 0x8121) 1 0xF0) 2 0x0F) VF 1)
    t.reg 1 = 0xFF ∧ t.reg VF = 1 := by decide
/-- V-ALU-6. -/
theorem test_andReg : (stepped (withV (withV (rom1 0x8122) 1 0xF3) 2 0x3C)).reg 1 = 0x30 := by decide
/-- V-ALU-7. -/
theorem test_xorReg : (stepped (withV (withV (rom1 0x8123) 1 0xFF) 2 0x0F)).reg 1 = 0xF0 := by decide
/-- V-ALU-9, V-ALU-10: sums of exactly 255 and 256. -/
theorem test_addReg :
    let t := stepped (withV (withV (rom1 0x8124) 1 0x7F) 2 0x80)
    let u := stepped (withV (withV (rom1 0x8124) 1 0xFF) 2 0x01)
    t.reg 1 = 0xFF ∧ t.reg VF = 0 ∧ u.reg 1 = 0x00 ∧ u.reg VF = 1 := by decide
/-- V-ALU-12, V-ALU-13: `VF` as destination and as source. -/
theorem test_addReg_vf :
    let t := stepped (withV (withV (rom1 0x8F24) VF 0x05) 2 0x03)
    let u := stepped (withV (withV (rom1 0x81F4) 1 0x10) VF 0x01)
    t.reg VF = 0 ∧ u.reg 1 = 0x11 ∧ u.reg VF = 0 := by decide
/-- V-ALU-14: a borrow, and equal operands. -/
theorem test_sub :
    let t := stepped (withV (withV (rom1 0x8125) 1 0x10) 2 0x20)
    let u := stepped (withV (withV (rom1 0x8125) 1 0x33) 2 0x33)
    t.reg 1 = 0xF0 ∧ t.reg VF = 0 ∧ u.reg 1 = 0x00 ∧ u.reg VF = 1 := by decide
/-- V-ALU-15. -/
theorem test_sub_vf :
    let t := stepped (withV (withV (rom1 0x8F25) VF 0x05) 2 0x03)
    let u := stepped (withV (withV (rom1 0x81F5) 1 0x10) VF 0x20)
    t.reg VF = 1 ∧ u.reg 1 = 0xF0 ∧ u.reg VF = 0 := by decide
/-- V-ALU-16. -/
theorem test_subn :
    let t := stepped (withV (withV (rom1 0x8127) 1 0x10) 2 0x20)
    let u := stepped (withV (withV (rom1 0x8127) 1 0x20) 2 0x10)
    t.reg 1 = 0x10 ∧ t.reg VF = 1 ∧ u.reg 1 = 0xF0 ∧ u.reg VF = 0 := by decide
/-- V-ALU-19, V-ALU-17. -/
theorem test_shr :
    let t := stepped (withV (withV (rom1 0x81F6) 1 0x05) VF 0x80)
    t.reg 1 = 0x02 ∧ t.reg VF = 1 := by decide
theorem test_shr_vf : (stepped (withV (rom1 0x8F06) VF 0x06)).reg VF = 0x00 ∧
    (stepped (withV (rom1 0x8F06) VF 0x03)).reg VF = 0x01 := by decide
/-- V-ALU-20, V-ALU-18. -/
theorem test_shl :
    let t := stepped (withV (rom1 0x810E) 1 0x81)
    t.reg 1 = 0x02 ∧ t.reg VF = 1 := by decide
theorem test_shl_vf : (stepped (withV (rom1 0x8F0E) VF 0x81)).reg VF = 0x01 ∧
    (stepped (withV (rom1 0x8F0E) VF 0x41)).reg VF = 0x00 := by decide
/-- V-ALU-21, whatever the byte drawn: mask 0 gives 0, and one byte is drawn. -/
theorem test_rnd :
    let t := stepped (rom1 0xC300)
    t.reg 3 = 0 ∧ t.rng = 1 := by
  refine ⟨?_, by decide⟩
  show Config.rand 0 &&& 0 = 0
  simp

/-- V-IDX-1. -/
theorem test_ldI : (stepped (rom1 0xAFFF)).i = 0x0FFF := by decide
/-- V-IDX-3, V-IDX-4. -/
theorem test_addI :
    let t := stepped (withV { rom1 0xF21E with i := 0x0FFF } 2 1)
    let u := stepped (withV { rom1 0xF21E with i := 0xFFFF } 2 1)
    t.i = 0x1000 ∧ t.reg VF = 0 ∧ t.fault = none ∧ u.i = 0 := by decide
/-- V-IDX-5. -/
theorem test_ldF : (stepped (withV (rom1 0xF329) 3 0x0F)).i = 0x004B ∧
    (stepped (withV (rom1 0xF329) 3 0xFF)).i = 0x04FB := by decide
/-- V-IDX-7: the last legal `I`. -/
theorem test_ldB :
    let t := stepped (withV { rom1 0xF233 with i := 0x0FFD } 2 254)
    t.memRead 0xFFD = some 2 ∧ t.memRead 0xFFE = some 5 ∧ t.memRead 0xFFF = some 4 ∧ t.fault = none := by decide
/-- V-IDX-8. -/
theorem test_ldB_out_of_range :
    (stepped (withV { rom1 0xF233 with i := 0x0FFE } 2 254)).fault = some (.memoryOutOfRange 0x1000) := by decide
/-- V-IDX-9. -/
theorem test_stRegs :
    let t := stepped (withV (withV (withV (withV { rom1 0xF255 with i := 0x400 } 0 1) 1 2) 2 3) 3 4)
    t.memRead 0x400 = some 1 ∧ t.memRead 0x401 = some 2 ∧ t.memRead 0x402 = some 3 ∧ t.memRead 0x403 = some 0 ∧
      t.i = 0x400 := by decide
/-- V-IDX-12. -/
theorem test_stRegs_out_of_range :
    (stepped { rom1 0xFF55 with i := 0x0FF1 }).fault = some (.memoryOutOfRange 0x1000) := by decide
/-- V-IDX-14: from the font, `VF` loaded as data. -/
theorem test_ldRegs :
    let t := stepped (rom1 0xFF65)
    t.reg 0 = 0xF0 ∧ t.reg 4 = 0xF0 ∧ t.reg 5 = 0x20 ∧ t.reg 13 = 0x80 ∧ t.reg VF = 0xF0 := by decide
/-- V-IDX-15. -/
theorem test_ldRegs_out_of_range :
    (stepped { rom1 0xF165 with i := 0xFFFF }).fault = some (.memoryOutOfRange 0xFFFF) := by decide

/-- V-DSP-5: wrapping at the right edge, and at the bottom through `V1 = 32`. -/
theorem test_drw :
    let s : State := { rom1 0xD011 with i := 0x206, mem := (rom1 0xD011).mem.write 0x206 0xC0 }
    let t := stepped (withV (withV s 0 0xFF) 1 0x20)
    t.fb = ((Frame.cleared.flipPixel 63 0).1.flipPixel 0 0).1 ∧ t.reg VF = 0 := by decide
/-- V-DSP-7 and V-DSP-2: a partial collision; no rows. -/
theorem test_drw_collision :
    let s : State := { rom1 0xD011 with
      i := 0x206, mem := (rom1 0xD011).mem.write 0x206 0xC0, fb := (Frame.cleared.flipPixel 1 0).1 }
    let u := stepped (withV { rom1 0xD010 with i := 0xFFFF } VF 1)
    (stepped s).fb = (Frame.cleared.flipPixel 0 0).1 ∧ (stepped s).reg VF = 1 ∧
      u.fb = Frame.cleared ∧ u.reg VF = 0 ∧ u.fault = none := by decide

/-- V-KEY-1. -/
theorem test_skp :
    let s := withV (rom1 0xE39E) 3 5
    (stepped (s.setKey 5 true)).pc = 0x204 ∧ (stepped s).pc = 0x202 := by decide
/-- V-KEY-3. -/
theorem test_skp_fault :
    let t := stepped (withV (rom1 0xE39E) 3 0x10)
    t.fault = some (.keyIndexOutOfRange 16) ∧ t.pc = 0x202 := by decide
/-- V-KEY-2. -/
theorem test_sknp :
    let s := withV (rom1 0xE3A1) 3 5
    (stepped (s.setKey 5 true)).pc = 0x202 ∧ (stepped s).pc = 0x204 := by decide
/-- V-KEY-3. -/
theorem test_sknp_fault : (stepped (withV (rom1 0xE3A1) 3 0x10)).fault = some (.keyIndexOutOfRange 16) := by decide
/-- V-KEY-5. -/
theorem test_ldVxDt : (stepped { rom1 0xF407 with dt := 7 }).reg 4 = 7 := by decide
/-- V-KEY-9: a held key and a release resolve nothing, a press does. -/
theorem test_ldVxK :
    let s := stepped ((rom1 0xF30A).setKey 7 true)
    s.latch = some 3 ∧ s.pc = 0x202 ∧ (stepped s).latch = some 3 ∧ (keyEvent 7 false s).latch = some 3 ∧
      (keyEvent 2 true s).reg 3 = 2 ∧ (keyEvent 2 true s).latch = none := by decide
/-- V-KEY-11. -/
theorem test_ldVxK_vf : (keyEvent 9 true (stepped (rom1 0xFF0A))).reg VF = 9 := by decide
/-- V-KEY-6. -/
theorem test_ldDtVx : (stepped (withV (rom1 0xF315) 3 0x1E)).dt = 0x1E := by decide
theorem test_ldStVx : (stepped (withV (rom1 0xF318) 3 0x1E)).st = 0x1E := by decide

/-! ### Faults, timers, events, scheduler -/

/-- V-KEY-14, P5: an illegal word, then events that change nothing. -/
theorem test_illegal_word :
    let t := stepped (rom1 0x8128)
    t.fault = some (.decodeFailure 0x8128) ∧ t.pc = 0x202 ∧ (stepped t).pc = 0x202 ∧ (keyEvent 1 true t).keyDown 1 = false := by
  decide
/-- V-KEY-7, V-KEY-8. -/
theorem test_tick :
    let s : State := { State.reset with dt := 2, st := 1 }
    (tick s).dt = 1 ∧ (tick s).st = 0 ∧ (tick (tick s)).st = 0 := by decide
/-- V-KEY-12: timers run while a register awaits a key. -/
theorem test_tick_latched : (tick { State.reset with dt := 3, latch := some 3 }).dt = 2 := by decide
/-- V-KEY-13. -/
theorem test_keyEvent :
    (keyEvent 4 true State.reset).keyDown 4 = true ∧ (keyEvent 4 false (keyEvent 4 true State.reset)).keyDown 4 = false := by
  decide
/-- The inspection view reads the stale slot of a popped entry (P2). -/
theorem test_inspect : (inspect { State.reset with stack := State.reset.stack.set 0 0x206 }).stack.head? = some 0x206 ∧
    (inspect State.reset).depth = 0 := by decide
/-- V-SCH-1: ten periods are ten iterations; V-SCH-2: half a period is none, a countdown of exactly 0 is one. -/
theorem test_iterationsDue : iterationsDue (-9 / 700 : Rat) (1 / 700) = 10 ∧ iterationsDue (1 / 1400 : Rat) (1 / 700) = 0 ∧
    iterationsDue (0 : Rat) (1 / 700) = 1 := by
  refine ⟨?_, ?_, ?_⟩
  · norm_num [iterationsDue]; rfl
  · norm_num [iterationsDue]
  · norm_num [iterationsDue]
/-- V-SCH-3: a sixtieth of a second from reset is one tick, and the countdown starts again from 1/60. -/
theorem test_timerLoop :
    let c : Clock Rat := ⟨1, 1, 1 / 60 - 1 / 60⟩
    let r := timerLoop (.field Rat) (iterationsDue c.timer (1 / 60)) c { State.reset with dt := 5 }
    r.1.dt = 4 ∧ r.2.timer = 1 / 60 := by
  have h : iterationsDue (1 / 60 - 1 / 60 : Rat) (1 / 60) = 1 := by norm_num [iterationsDue]
  simp only [h, timerLoop]
  rw [if_neg (by norm_num)]
  exact ⟨by decide, by norm_num [Clock.rearmTimer]⟩
/-- Any real number can be a state's clock period: here the host's first number is √2. -/
theorem test_irrational_period :
    let ρ : RealValues := ⟨1, one_pos, fun _ => Real.sqrt 2⟩
    (State.withClock State.reset ⟨.host 0, .host 0, .rat 1⟩).realClock ρ = ⟨Real.sqrt 2, Real.sqrt 2, 1⟩ := by
  simp [State.realClock, Clock.map, State.withClock, State.clock]
/-- A rate that no rational is: a state takes it, and its period is then the inverse. -/
theorem test_irrational_rate :
    let ρ : RealValues := ⟨1, one_pos, fun _ => Real.sqrt 2⟩
    setClockRate ρ (.host 0) State.reset = .next { State.reset with clockPeriod := .div (.rat 1) (.host 0) } := by
  intro ρ
  have h : RealTerm.isPos ρ (.host 0) = true := by simp [RealTerm.isPos_eq, ρ]
  simp [setClockRate, Clock.setRate, TimeArith.terms, h, State.putClock, State.withClock, State.clock, RealTerm.over]
/-- V-SCH-7, V-SCH-8. -/
theorem test_setClockRate (ρ : RealValues) :
    setClockRate ρ (.rat 1000) State.reset = .next { State.reset with clockPeriod := .rat (1 / 1000) } ∧
    multiplyClockRate ρ (.rat 2) { State.reset with clockPeriod := .rat (1 / 500) } =
      .next { State.reset with clockPeriod := .rat (1 / 1000) } := by
  constructor
  · norm_num [setClockRate, Clock.setRate, TimeArith.terms, RealTerm.isPos, RealTerm.over, State.putClock, State.withClock,
      State.clock]
  · norm_num [multiplyClockRate, Clock.multiplyRate, TimeArith.terms, RealTerm.isPos, RealTerm.over, State.putClock,
      State.withClock, State.clock]
/-- V-SCH-9: the first step faults and the fault is handed on. -/
theorem test_advance_fault :
    let c : Clock Rat := Clock.reset (.field Rat) (1 / 700)
    advanceClock (.field Rat) Params.default (1 / 70) c (rom1 0x8128) =
      .next (stepped (rom1 0x8128), (c.elapse (.field Rat) (1 / 70)).rearmCpu (.field Rat), .err (.decodeFailure 0x8128)) := by
  have h : iterationsDue (1 / 700 - 1 / 70 : Rat) (1 / 700) = 9 + 1 := by norm_num [iterationsDue]; rfl
  intro c
  rw [advanceClock, if_pos (by norm_num [c, Clock.reset])]
  simp only [Clock.elapse, Clock.reset, c, TimeArith.field_iterations, TimeArith.field_sub, h, instructionLoop]
  rw [if_neg (by norm_num)]
  rfl

/-! ### Parameters -/

/-- Another font than the default, and its glyph 0 after reset. -/
theorem test_other_font :
    let p : Params := { Params.default with font := Vector.replicate 80 0x3C }
    (State.resetWith [] p).memRead 0 = some 0x3C ∧ (State.resetWith [] p).memRead 79 = some 0x3C ∧
      (State.resetWith [] p).memRead 80 = some 0 ∧ (State.resetWith []).mem = [] := by decide
/-- Another assignment than the default: `JP V0,nnn` and `LD I,nnn` with their top nibbles exchanged. -/
theorem test_other_opmap :
    let m : OpMap := { opmap with ldI := 0xB, jpV0 := 0xA }
    m.wf = true ∧ decodeWith false 0xB123 m = some (.ldI 0x123) ∧ encodeWith m (.jpV0 0x123) = 0xA123 ∧
      { m with jpV0 := 0xB }.wf = false := by decide

/-! ### Witnesses: the hypotheses of the statements, clause by clause, met at the boundary values -/

/-- A word that decodes, at the first address and at the last word of memory. -/
theorem witness_StepRunsDecodedInstruction :
    let s := rom1 0x6A3C
    s.fault = none ∧ s.latch = none ∧ s.memRead s.pc.toNat = some 0x6A ∧ s.memRead (s.pc.toNat + 1) = some 0x3C ∧
      (0x6A3C : Word).toNat = (0x6A : Byte).toNat * 256 + (0x3C : Byte).toNat ∧ decode 0x6A3C = .ok (.ldImm 0xA 0x3C) := by
  decide
theorem witness_StepRunsDecodedInstruction_last_word :
    let s := State.withFetchWord { State.reset with pc := 0xFFE } 16 0x6A3C
    s.pc = 0xFFE ∧ s.memRead s.pc.toNat = some 0x6A ∧ s.memRead (s.pc.toNat + 1) = some 0x3C := by decide
theorem witness_StepRunsDecodedInstruction_illegal :
    let s := rom1 0x8128
    s.fault = none ∧ s.latch = none ∧ s.memRead s.pc.toNat = some 0x81 ∧ s.memRead (s.pc.toNat + 1) = some 0x28 ∧
      decode 0x8128 = .error (.decodeFailure 0x8128) := by decide
theorem witness_StepRunsDecodedInstruction_no_byte :
    let s : State := { State.reset with pc := 0x1000 }
    s.fault = none ∧ s.latch = none ∧ s.memRead s.pc.toNat = none := by decide
theorem witness_StepRunsDecodedInstruction_one_byte :
    let s : State := { State.reset with pc := 0xFFF }
    s.fault = none ∧ s.latch = none ∧ s.memRead s.pc.toNat = some 0 ∧ s.memRead (s.pc.toNat + 1) = none := by decide

theorem witness_HaltedCoreIgnoresEvents : (State.reset.raise .stackOverflow).fault = some .stackOverflow := rfl

theorem witness_PlacedWordRunsNext : decodeTableWord 16 0xF155 = some (.stRegs 1) ∧
    decodeTableWord 16 0 = some (.sys 0) := by decide

/-- The largest image and one byte more; addresses at both ends of each range. -/
theorem witness_ResetLoadsImageAndZeroesTheRest :
    (List.replicate 3584 (1 : Byte)).length ≤ 3584 ∧ 3584 < (List.replicate 3585 (1 : Byte)).length :=
  ⟨List.length_replicate.le, Nat.lt_of_lt_of_eq (by omega) List.length_replicate.symm⟩
theorem witness_ResetLoadsImageAndZeroesTheRest_addresses :
    let t := State.resetWith [0xAB]
    t.memRead 0 = some 0xF0 ∧ t.memRead 79 = some 0x80 ∧ t.memRead 80 = some 0 ∧ t.memRead 0x1FF = some 0 ∧
      t.memRead 0x200 = some 0xAB ∧ t.memRead 0x201 = some 0 ∧ t.memRead 0xFFF = some 0 ∧ t.memRead 0x1000 = none := by
  decide

/-- The largest `PC` and return address the invariant admits, with a register awaiting a key. -/
theorem witness_EveryStepKeepsTheInvariant :
    let s : State := { State.reset with
      pc := 0x10FE, stack := Vector.replicate 16 0x1000, latch := some 15, mem := [(0xFFF, 1)] }
    s.Inv ∧ step s = .next s := by
  refine ⟨⟨by decide, .inl rfl, by decide, ?_⟩, rfl⟩
  intro k
  simp
/-- A running state with the invariant, at its largest `PC`. -/
theorem witness_EveryStepKeepsTheInvariant_running :
    let s : State := { State.reset with pc := 0x10FE }
    s.Inv ∧ step s = .next (s.raise (.memoryOutOfRange 0x10FE)) := by
  refine ⟨⟨rfl, .inl rfl, by decide, ?_⟩, rfl⟩
  intro k
  simp [State.reset]

theorem witness_EveryEventSequenceRunsAndKeepsTheInvariant : ([0xF3, 0x0A] : List Byte).length ≤ 3584 := by decide

theorem witness_DecodeOfEncodeIsTheInstruction :
    (Instr.sys 0x0E1).wf = true ∧ (Instr.drw 15 15 15).wf = true := by decide

theorem witness_EncodeOfDecodeIsTheWord :
    decode 0x5AB7 = .ok (.seReg 0xA 0xB) ∧ decode 0x8AF6 = .ok (.shr 0xA) := by decide

/-- A register form, and a store whose last byte is the last of memory. -/
theorem witness_EveryInstructionStaysInItsFootprint :
    let s : State := { State.reset with i := 0xFF0 }
    faultOf s (.ldImm 1 2) = none ∧ exec (.ldImm 1 2) s = .next (s.setReg 1 2) ∧
      faultOf s (.stRegs 15) = none ∧ exec (.stRegs 15) s = .next (executed (.stRegs 15) s) :=
  ⟨by decide, rfl, by decide, rfl⟩

theorem witness_StackAndKeyFaultsChangeOnlyTheRecord :
    ({ State.reset with sp := 16 } : State).sp.val = 16 ∧ State.reset.sp.val = 0 ∧
    15 < ((withV State.reset 3 0x10).reg 3).toNat ∧ 15 < ((withV State.reset 3 0xFF).reg 3).toNat := by decide

/-- The first `I` out of range for each form. -/
theorem witness_OutOfRangeTransfersReportTheFirstAddress :
    (let s : State := { State.reset with i := 0xFFF }
     0 < (2 : Nibble).toNat ∧ 0xFFF < s.i.toNat + (2 : Nibble).toNat - 1) ∧
    (let s : State := { State.reset with i := 0x1000 }
     0 < (1 : Nibble).toNat ∧ 0xFFF < s.i.toNat + (1 : Nibble).toNat - 1) ∧
    (let s : State := { State.reset with i := 0xFFE }
     0xFFF < s.i.toNat + 2) ∧
    (let s : State := { State.reset with i := 0xFF1 }
     0xFFF < s.i.toNat + (15 : Reg).val) ∧
    (let s : State := { State.reset with i := 0x1000 }
     0xFFF < s.i.toNat + (0 : Reg).val) := by decide

theorem witness_ReturnPopsTheCallStack :
    ({ State.reset with sp := 1 } : State).sp.val = (0 : Fin 16).val + 1 ∧
    ({ State.reset with sp := 16 } : State).sp.val = (15 : Fin 16).val + 1 := by decide

theorem witness_CallAndSysPushAndJump :
    State.reset.sp.val = (0 : Fin 16).val ∧ ({ State.reset with sp := 15 } : State).sp.val = (15 : Fin 16).val ∧
    (1 : Fin 16) ≠ 0 := by decide

/-- The state after the call itself meets the inner hypotheses. -/
theorem witness_CallThenReturnRestores :
    let s : State := { State.reset with sp := 15 }
    let t := executed (.call 0x300) s
    s.sp.val < 16 ∧ exec (.call 0x300) s = .next t ∧ t.sp = 16 ∧ t.stack[15] = 0x200 := ⟨by decide, rfl, by decide, by decide⟩

theorem witness_ImmediateSkipsFollowTheirCondition :
    (withV State.reset 15 0xFF).reg 15 = 0xFF ∧ (withV State.reset 15 0xFF).reg 15 ≠ 0 := by decide

/-- A register compared with itself, and two that differ. -/
theorem witness_RegisterSkipsFollowTheirCondition :
    State.reset.reg 3 = State.reset.reg 3 ∧ (withV State.reset 3 1).reg 3 ≠ (withV State.reset 3 1).reg 4 := by decide

/-- At the reset address and at the last address a fetch can read. -/
theorem witness_FinishedProgramStays :
    (rom1 0x1200).FinishedAt 0x200 ∧
    (State.withFetchWord { State.reset with pc := 0xFFE } 16 0x1FFE).FinishedAt 0xFFE :=
  ⟨⟨⟨rfl, rfl⟩, by decide, by decide, by decide⟩, ⟨⟨rfl, rfl⟩, by decide, by decide, by decide⟩⟩

theorem witness_AddRegistersSetsCarry : (1 : Reg) ≠ VF ∧ (2 : Reg) ≠ 1 ∧ (2 : Reg) ≠ VF := by decide
theorem witness_SubtractSetsNotBorrow : (14 : Reg) ≠ VF := by decide
theorem witness_ShiftsMoveTheBitShiftedOutToTheFlag : (0 : Reg) ≠ VF := by decide
theorem witness_LoadImmediateWritesItsRegister : (0 : Reg) ≠ 15 := by decide

theorem witness_BcdDigitsAreStored :
    let s : State := { State.reset with i := 0xFFD }
    s.i.toNat ≤ 0xFFD ∧ 0xFFC < s.i.toNat ∧ s.i.toNat + 2 < 0x1000 := by decide

theorem witness_RegisterDumpStoresUpToX :
    ({ State.reset with i := 0xFF0 } : State).i.toNat + (15 : Reg).val ≤ 0xFFF ∧
    ({ State.reset with i := 0xFFF } : State).i.toNat + (0 : Reg).val ≤ 0xFFF ∧ (15 : Reg) ≤ 15 := by decide

theorem witness_RegisterLoadReadsUpToX :
    ({ State.reset with i := 0xFF0 } : State).i.toNat + (15 : Reg).val ≤ 0xFFF ∧
    ({ State.reset with i := 0xFFF } : State).i.toNat + (0 : Reg).val ≤ 0xFFF ∧ (0 : Reg) < 15 := by decide

/-- The state after the dump itself meets the inner hypotheses. -/
theorem witness_DumpThenLoadRestoresRegisters :
    let s : State := { State.reset with i := 0xFF0 }
    let t := executed (.stRegs 15) s
    s.i.toNat + (15 : Reg).val ≤ 0xFFF ∧ exec (.stRegs 15) s = .next t ∧ t.i = s.i := ⟨by decide, rfl, by decide⟩

/-- The state after the dump, sent to fetch from `I`. -/
theorem witness_StoredBytesAreFetchedNext :
    let s : State := withV (withV { State.reset with i := 0xFFE } 0 0x6A) 1 0x3C
    let t := executed (.stRegs 1) s
    let u : State := { t with pc := s.i }
    1 ≤ (1 : Reg).val ∧ s.i.toNat + (1 : Reg).val ≤ 0xFFF ∧ u.mem = t.mem ∧ u.pc = s.i ∧ u.fault = none ∧
      u.latch = none ∧ decode (wordOfBytes (s.reg 0) (s.reg 1)) = .ok (.ldImm 0xA 0x3C) := by decide

/-- Two ways of writing the same contents. -/
theorem witness_CanonicalMemoriesThatReadAlikeAreEqual :
    let m : Memory := Memory.write (Memory.write [] 0x300 1) 0xFFF 2
    let m' : Memory := Memory.write (Memory.write (Memory.write [] 0xFFF 2) 0x300 7) 0x300 1
    m.wf = true ∧ m'.wf = true ∧ m = m' := by decide

theorem witness_FrameBufferOperations : (63 % 64 ≠ 127 % 64 ∨ 0 % 32 ≠ 31 % 32) := by decide

/-- No rows at any `I`; all rows inside memory, the last byte at 0xFFF. -/
theorem witness_DrawIsExclusiveOrWithTheMask :
    (0 : Nibble).toNat = 0 ∧ ({ State.reset with i := 0xFFF } : State).i.toNat + (1 : Nibble).toNat ≤ 0x1000 ∧
    ({ State.reset with i := 0xFF1 } : State).i.toNat + (15 : Nibble).toNat ≤ 0x1000 := by decide
/-- The font byte at 0 is 0xF0: it covers column 0 (so at 64 too), not column 4; a set pixel under it collides. -/
theorem witness_DrawIsExclusiveOrWithTheMask_cells :
    SpriteCovers [] 0 1 64 32 0 0 ∧ ¬ SpriteCovers [] 0 1 64 32 4 0 ∧
    getPixel { State.reset with fb := (Frame.cleared.flipPixel 0 0).1 } 0 0 = true := by
  refine ⟨⟨0, 0, by decide, by decide, by decide, by decide, by decide⟩, ?_, by decide⟩
  rintro ⟨row, col, hr, hc, hb, hx, -⟩
  have hcol : col = 4 := by omega
  have hrow : row = 0 := by omega
  subst hcol hrow
  revert hb
  decide
theorem witness_DrawingTwiceRestoresThePicture :
    let s : State := { State.reset with i := 0 }
    let t := executed (.drw 0 1 5) s
    s.i.toNat + (5 : Nibble).toNat ≤ 0x1000 ∧ t.mem = s.mem ∧ t.i = s.i ∧ t.reg 0 = s.reg 0 ∧
      t.reg 1 = s.reg 1 ∧ t.fb ≠ s.fb := by decide
/-- `VF` as a coordinate: the second draw starts with `VF` as it was. -/
theorem witness_DrawingTwiceRestoresThePicture_vf :
    let s : State := withV State.reset VF 3
    let s' : State := withV (executed (.drw VF VF 5) s) VF 3
    s'.fb = (executed (.drw VF VF 5) s).fb ∧ s'.mem = s.mem ∧ s'.i = s.i ∧ s'.reg VF = s.reg VF := by decide

theorem witness_KeySkipsTestTheKeyLevel :
    let s := withV State.reset 3 15
    (s.reg 3).toNat = (15 : Key).val ∧ s.keyDown 15 = false ∧ (s.setKey 15 true).keyDown 15 = true ∧
      ((s.setKey 15 true).reg 3).toNat = (15 : Key).val := by decide

theorem witness_KeyWaitLatchesUntilAPress : State.reset.fault = none := rfl

theorem witness_TickCountsBothTimersDown : State.reset.fault = none ∧ (State.reset.raise .stackUnderflow).fault ≠ none := by
  decide

theorem witness_KeyEventSetsTheKeyAndResolvesTheLatch :
    (State.reset.raise .stackUnderflow).fault ≠ none ∧ State.reset.fault = none ∧ State.reset.latch = none ∧
    (State.reset.awaitKey 15).fault = none ∧ (State.reset.awaitKey 15).latch = some 15 ∧ (1 : Key) ≠ 0 := by decide

theorem witness_LatchIsSetByKeyWaitAndClearedByAPress :
    State.reset.latch = none ∧ exec (.ldVxK 3) State.reset = .next (State.reset.awaitKey 3) ∧
    event .step (rom1 0xF30A) = .next (stepped (rom1 0xF30A)) ∧ (stepped (rom1 0xF30A)).latch = some 3 ∧
    (State.reset.awaitKey 3).fault = none ∧ (State.reset.awaitKey 3).latch = some 3 ∧
    event .tick (State.reset.awaitKey 3) = .next (tick (State.reset.awaitKey 3)) ∧
    load [] = .next (State.resetWith []) := ⟨rfl, rfl, rfl, by decide, rfl, rfl, rfl, rfl⟩

/-- Steps that change each timer. -/
theorem witness_StepLeavesKeysTimersAndScheduler :
    let s := withV (rom1 0xF315) 3 7
    let u := withV (rom1 0xF318) 3 7
    step s = .next (stepped s) ∧ (stepped s).dt ≠ s.dt ∧ step u = .next (stepped u) ∧ (stepped u).st ≠ u.st :=
  ⟨rfl, by decide, rfl, by decide⟩

theorem witness_TicksAndKeyEventsAreNoInterrupts :
    Event.tick ≠ .step ∧ Event.key 4 true ≠ .step ∧ event .tick State.reset = .next (tick State.reset) :=
  ⟨by decide, by decide, rfl⟩

/-- With no time and with one period of a program that runs `LD V0,0`. -/
theorem witness_AdvanceExecutesExactlyTheStepsDue (ρ : RealValues) :
    let s := rom1 0x6000
    0 < s.clockPeriod.value ρ ∧ s.cpuCountdown.value ρ = s.clockPeriod.value ρ ∧
      (RealTerm.rat 0).value ρ = (0 : Nat) * s.clockPeriod.value ρ ∧
      RealTerm.clockPeriod.value ρ = (1 : Nat) * s.clockPeriod.value ρ ∧ Host.Core.run core 0 s = .next s ∧
      Host.Core.run core 1 s = .next (stepped s) ∧ (stepped s).fault = none ∧ (stepped s).latch = none := by
  have h : (rom1 0x6000).clockPeriod = .clockPeriod := rfl
  exact ⟨ρ.clockPeriod_pos, rfl, by simp, by simp [h], rfl, rfl, by decide, by decide⟩

theorem witness_AdvanceWhileAwaitingKeyExecutesNothing (ρ : RealValues) :
    let s := State.reset.awaitKey 3
    0 ≤ RealTerm.clockPeriod.value ρ ∧ 0 < s.clockPeriod.value ρ ∧ s.fault = none ∧ s.latch = some 3 :=
  ⟨ρ.clockPeriod_pos.le, ρ.clockPeriod_pos, rfl, rfl⟩

/-- A call of no time at all, on any clock with positive countdowns. -/
theorem advanceClock_zero {K : Type} [Field K] [LinearOrder K] [FloorRing K] [IsStrictOrderedRing K] (p : Params)
    (c : Clock K) (s : State) (hp : 0 < c.period) (hc : 0 < c.cpu) (ht : 0 < c.timer) :
    advanceClock (.field K) p 0 c s = .next (s, c.elapse (.field K) 0, .ok 0) := by
  have h1 : iterationsDue (c.elapse (.field K) 0).cpu c.period = 0 := iterationsDue_of_pos (by simpa [Clock.elapse] using hc)
  have h2 : iterationsDue (c.elapse (.field K) 0).timer (1 / 60 : K) = 0 :=
    iterationsDue_of_pos (by simpa [Clock.elapse] using ht)
  rw [advanceClock, if_pos (by simp [hp])]
  simp only [TimeArith.field_iterations, TimeArith.field_sixtieth, h1, instructionLoop, h2, timerLoop]

/-- A call of no time at all from reset, the initial period any positive real number. -/
theorem witness_AdvanceLeavesBothCountdownsPositive (ρ : RealValues) :
    advance ρ (.rat 0) State.reset =
      .next (State.reset.withClock (State.reset.clock.elapse (.terms ρ) (.rat 0)), .ok 0) := by
  let c := State.reset.clock.elapse (.terms ρ) (.rat 0)
  have hp : (TimeArith.terms ρ).isPos State.reset.clock.period = true := by
    show RealTerm.isPos ρ .clockPeriod = true
    simp [RealTerm.isPos_eq, ρ.clockPeriod_pos]
  have h1 : (TimeArith.terms ρ).iterations c.cpu State.reset.clock.period = 0 := by
    show RealTerm.iterations ρ (.sub .clockPeriod (.rat 0)) .clockPeriod = 0
    rw [RealTerm.iterations_eq]
    exact iterationsDue_of_pos (by simp [RealTerm.value, ρ.clockPeriod_pos])
  have h2 : (TimeArith.terms ρ).iterations c.timer (TimeArith.terms ρ).sixtieth = 0 := by
    show iterationsDue (Config.timerPeriod - 0) Config.timerPeriod = 0
    exact iterationsDue_of_pos (by norm_num [timerPeriod_eq])
  have h0 : (TimeArith.terms ρ).isNonneg (.rat 0) = true := by simp [TimeArith.terms, RealTerm.isNonneg]
  simp only [c] at h1 h2
  simp only [advance, advanceClock, hp, h0, Bool.and_self, if_true, h1, instructionLoop, h2, timerLoop]

/-- On a real clock with an irrational period. -/
theorem witness_AdvanceIsTheStepsDueThenTheTicksDue :
    State.reset.fault = none ∧
    advanceClock (.field ℝ) Params.default 0 (Clock.reset (.field ℝ) (Real.sqrt 2)) State.reset =
      .next (State.reset, (Clock.reset (.field ℝ) (Real.sqrt 2)).elapse (.field ℝ) 0, .ok 0) :=
  ⟨rfl, advanceClock_zero _ _ _ (by simp [Clock.reset]) (by simp [Clock.reset]) (by norm_num [Clock.reset])⟩

/-- The calls that answer and those that are refused, on a rational clock. -/
theorem witness_StateAndRationalClocksAgreeWithTheRealOne :
    let c : Clock Rat := Clock.reset (.field Rat) (1 / 500)
    advanceClock (.field Rat) Params.default 0 c State.reset = .next (State.reset, c.elapse (.field Rat) 0, .ok 0) ∧
    advanceClock (.field Rat) Params.default (-1) c State.reset = .refused .clockOutsideContract ∧
    c.setRate (.field Rat) 1000 = .next { c with period := 1 / 1000 } ∧
    c.setRate (.field Rat) 0 = .refused .clockOutsideContract ∧
    c.multiplyRate (.field Rat) 2 = .next { c with period := 1 / 500 / 2 } ∧
    c.multiplyRate (.field Rat) 0 = .refused .clockOutsideContract := by
  intro c
  refine ⟨advanceClock_zero _ _ _ (by norm_num [c, Clock.reset]) (by norm_num [c, Clock.reset])
    (by norm_num [c, Clock.reset]), ?_, ?_, ?_, ?_, ?_⟩
  · rw [advanceClock, if_neg (by norm_num)]
  · rw [Clock.setRate, if_pos (by norm_num)]; rfl
  · rw [Clock.setRate, if_neg (by norm_num)]
  · rw [Clock.multiplyRate, if_pos (by norm_num)]; rfl
  · rw [Clock.multiplyRate, if_neg (by norm_num)]

/-- And on a state, whatever the initial period: the calls that are refused, and those that answer (beside
witness_AdvanceLeavesBothCountdownsPositive). -/
theorem witness_StateAndRationalClocksAgreeWithTheRealOne_state (ρ : RealValues) :
    advance ρ (.rat (-1)) State.reset = .refused .clockOutsideContract ∧
    setClockRate ρ (.rat 1000) State.reset = .next { State.reset with clockPeriod := .rat (1 / 1000) } ∧
    setClockRate ρ (.rat 0) State.reset = .refused .clockOutsideContract ∧
    multiplyClockRate ρ (.rat 2) State.reset =
      .next { State.reset with clockPeriod := .div .clockPeriod (.rat 2) } ∧
    multiplyClockRate ρ (.rat 0) State.reset = .refused .clockOutsideContract := by
  have h0 : (TimeArith.terms ρ).isPos (.rat 0) = false := by simp [TimeArith.terms, RealTerm.isPos]
  refine ⟨?_, (test_setClockRate ρ).1, by simp [setClockRate, Clock.setRate, h0, State.putClock], ?_,
    by simp [multiplyClockRate, Clock.multiplyRate, h0, State.putClock]⟩
  · have h : (TimeArith.terms ρ).isNonneg (.rat (-1)) = false := by norm_num [TimeArith.terms, RealTerm.isNonneg]
    simp [advance, advanceClock, h]
  · norm_num [multiplyClockRate, Clock.multiplyRate, TimeArith.terms, RealTerm.isPos, RealTerm.over, State.putClock,
      State.withClock, State.clock, State.reset]

/-- The invariant at its largest values, and the largest image. -/
theorem witness_EveryEventKeepsTheInvariant :
    let s : State := { State.reset with pc := 0x10FE, stack := Vector.replicate 16 0x1000, mem := [(0xFFF, 1)] }
    s.Inv ∧ (List.replicate 3584 (1 : Byte)).length ≤ 3584 := by
  refine ⟨⟨by decide, .inl rfl, by decide, ?_⟩, List.length_replicate.le⟩
  intro k
  simp

theorem witness_ResetTakesAnyFont :
    ([] : List Byte).length ≤ 3584 ∧ (List.replicate 3584 (1 : Byte)).length ≤ 3584 := ⟨by decide, List.length_replicate.le⟩

/-- A word that decodes under another assignment, and the compare skip under `STRICT_XY0`, at the last address a fetch reads. -/
theorem witness_StepTakesAnyOpmap :
    let s := State.withFetchWord { State.reset with pc := 0xFFE } 16 0x5AB7
    let p : Params := { Params.default with strictXY0 := true }
    let q : Params := { Params.default with opmap := { opmap with seReg := 0x9, sneReg := 0x5 } }
    s.fault = none ∧ s.latch = none ∧ s.pc.toNat ≤ 0xFFE ∧ s.memRead s.pc.toNat = some (bytesOfWord 0x5AB7).1 ∧
      s.memRead (s.pc.toNat + 1) = some (bytesOfWord 0x5AB7).2 ∧ decodeWith p.strictXY0 0x5AB7 p.opmap = none ∧
      decodeWith q.strictXY0 0x5AB7 q.opmap = some (.sneReg 0xA 0xB) := by decide

/-- `SYS 0x0EE` has a word under an assignment that puts `RET` elsewhere. -/
theorem witness_EveryOpmapDecodesWhatItEncodes :
    let m : OpMap := { opmap with ret := 0x00EF }
    m.wf = true ∧ wordNNN 0x0 0x0EE ≠ 0x00E0 ∧ wordNNN 0x0 0x0EE ≠ m.ret := by decide

/-- A rate of 1000, and one of 0. -/
theorem witness_ClockRateSetsThePeriod (ρ : RealValues) :
    0 < (RealTerm.rat 1000).value ρ ∧ (RealTerm.rat 0).value ρ ≤ 0 := by norm_num

end Sys2Proof.Tests
end

section
/-!
PROOFS. The latch (spec/10_state.md R29): which instruction writes it, what each event can do to it, and O48, assembled from these.
-/

namespace Sys2Proof.Machine

/-! ### Instructions and steps -/

/-- LD Vx,K is the only instruction that writes the latch (R193); a fault keeps it as well. -/
theorem exec_latch_of_ne_ldVxK {i : Instr} {s t : State} (hi : ∀ x, i ≠ .ldVxK x) (h : exec i s = .next t) :
    t.latch = s.latch := by
  cases i
  case ldVxK x => exact absurd rfl (hi x)
  case drw => rcases drawSprite_cases h with ⟨-, rfl⟩ | ⟨-, rfl⟩ <;> simp
  case ret => rcases returnFromCall_cases h with ⟨_, rfl⟩ | ⟨-, rfl⟩ <;> rfl
  case call => rcases callTo_cases h with ⟨_, rfl⟩ | ⟨-, rfl⟩ <;> rfl
  case sys => rcases callTo_cases h with ⟨_, rfl⟩ | ⟨-, rfl⟩ <;> rfl
  case ldB => rcases storeBytes_cases h with ⟨-, rfl⟩ | ⟨-, rfl⟩ <;> rfl
  case stRegs => rcases storeBytes_cases h with ⟨-, rfl⟩ | ⟨-, rfl⟩ <;> rfl
  case ldRegs => rcases loadRegsFrom_cases h with ⟨-, rfl⟩ | ⟨-, rfl⟩ <;> simp
  case skp => simp only [exec, execSkp] at h; split at h <;> cases h <;> simp
  case sknp => simp only [exec, execSknp] at h; split at h <;> cases h <;> simp
  all_goals (cases h; simp)

/-- From a clear latch, an instruction sets it for `x` exactly when it is LD Vx,K of that register. -/
theorem exec_latch_eq_some_iff {i : Instr} {s t : State} {x : Reg} (hl : s.latch = none) (h : exec i s = .next t) :
    t.latch = some x ↔ i = .ldVxK x := by
  by_cases hi : ∃ y, i = .ldVxK y
  · obtain ⟨y, rfl⟩ := hi
    cases h
    simp
  · rw [not_exists] at hi
    simp [exec_latch_of_ne_ldVxK hi h, hl, hi x]

/-- A step sets a clear latch only by fetching and executing LD Vx,K: a fault before or after the fetch leaves it clear. -/
theorem step_fetches_ldVxK_of_sets_latch {s t : State} {x : Reg} (hl : s.latch = none) (h : step s = .next t)
    (ht : t.latch = some x) : ∃ w, s.fetch = .ok w ∧ decode w = .ok (.ldVxK x) := by
  rcases step_cases h with ⟨rfl, -⟩ | ⟨-, ⟨-, rfl⟩ | ⟨hp, w, rfl, ⟨i, hi, h⟩ | ⟨-, rfl⟩⟩⟩
  · simp [hl] at ht
  · simp [hl] at ht
  · obtain rfl := (exec_latch_eq_some_iff (s := s.advancePc) hl h).mp ht
    exact ⟨_, State.fetch_of_inRange hp, hi⟩
  · simp [hl] at ht

/-! ### Ticks and key events -/

@[simp] theorem tick_latch (s : State) : (tick s).latch = s.latch := by rw [tick_frame]

@[simp] theorem tick_v (s : State) : (tick s).v = s.v := by rw [tick_frame]

/-- A release touches neither the latch nor a register (R222). -/
theorem keyEvent_release_latch_v (k : Key) (s : State) :
    (keyEvent k false s).latch = s.latch ∧ (keyEvent k false s).v = s.v := by
  rcases keyEvent_cases k false s with ⟨-, h⟩ | ⟨-, -, h⟩ | ⟨-, h, -⟩
  · simp [h]
  · rw [h]; exact ⟨rfl, rfl⟩
  · cases h

/-- No key event sets a clear latch. -/
theorem keyEvent_latch_of_none {k : Key} {pressed : Bool} {s : State} (hl : s.latch = none) :
    (keyEvent k pressed s).latch = none := by
  rcases keyEvent_cases k pressed s with ⟨-, h⟩ | ⟨-, -, h⟩ | ⟨-, -, _, -, h⟩
  · rw [h, hl]
  · rw [h]; exact hl
  · rw [h]

/-- A press while a register awaits a key: the key is down, its number stands in the register, the latch is clear (R222). -/
theorem keyEvent_press_of_latch {k : Key} {s : State} {r : Reg} (hf : s.fault = none) (hl : s.latch = some r) :
    keyEvent k true s = { (s.setKey k true).setReg r (BitVec.ofNat 8 k.val) with latch := none } := by
  rcases keyEvent_cases k true s with ⟨h, -⟩ | ⟨-, h, -⟩ | ⟨-, -, r', hr, h⟩
  · exact absurd hf h
  · simp [hl] at h
  · obtain rfl : r = r' := Option.some.inj (hl.symm.trans hr)
    exact h

/-- So such a press clears the latch and leaves the key's number in the awaiting register. -/
theorem keyEvent_press_resolves {k : Key} {s : State} {r : Reg} (hf : s.fault = none) (hl : s.latch = some r) :
    (keyEvent k true s).latch = none ∧ ((keyEvent k true s).reg r).toNat = k.val := by
  have hreg : (keyEvent k true s).reg r = BitVec.ofNat 8 k.val := by
    rw [keyEvent_press_of_latch hf hl]
    exact (State.reg_setReg (s.setKey k true) r r _).trans (if_pos rfl)
  have hk : k.val < 2 ^ 8 := k.isLt.trans (by decide)
  exact ⟨by rw [keyEvent_press_of_latch hf hl], by rw [hreg, BitVec.toNat_ofNat, Nat.mod_eq_of_lt hk]⟩

/-! ### Reset -/

/-- A reset that answers a state answers `State.resetWith`: the image fitted (R250, R251). -/
theorem load_eq_next {rom : List Byte} {p : Params} {t : State} (h : load rom p = .next t) :
    rom.length ≤ Config.romMax ∧ t = State.resetWith rom p := by
  unfold load at h
  split at h
  · next hlen => exact ⟨hlen, by cases h; rfl⟩
  · cases h

/-! ### Events, and the obligation -/

/-- Of the events, only a step that fetches LD Vx,K sets a clear latch. -/
theorem event_sets_latch {e : Event} {s t : State} {x : Reg} (hl : s.latch = none) (h : event e s = .next t)
    (ht : t.latch = some x) : e = .step ∧ ∃ w, s.fetch = .ok w ∧ decode w = .ok (.ldVxK x) := by
  cases e with
  | step => exact ⟨rfl, step_fetches_ldVxK_of_sets_latch hl h ht⟩
  | tick => cases h; simp [hl] at ht
  | key k pressed => cases h; simp [keyEvent_latch_of_none hl] at ht

/-- While a register awaits a key, an event keeps the latch and every register, or it is the press that resolves the latch. -/
theorem event_of_latch {e : Event} {s t : State} {r : Reg} (hf : s.fault = none) (hl : s.latch = some r)
    (h : event e s = .next t) :
    (t.latch = some r ∧ t.v = s.v) ∨ (∃ k, e = .key k true ∧ t.latch = none ∧ (t.reg r).toNat = k.val) := by
  match e with
  | .step =>
    cases (stepWith_of_latch hl).symm.trans h
    exact .inl ⟨hl, rfl⟩
  | .tick =>
    cases h
    exact .inl ⟨(tick_latch s).trans hl, tick_v s⟩
  | .key k false =>
    cases h
    obtain ⟨hlatch, hv⟩ := keyEvent_release_latch_v k s
    exact .inl ⟨hlatch.trans hl, hv⟩
  | .key k true =>
    cases h
    exact .inr ⟨k, rfl, keyEvent_press_resolves hf hl⟩

/-- Settles O48, clause by clause: an instruction, an event from a clear latch, a step, an event and a press with the latch set,
a reset. -/
theorem latchIsSetByKeyWaitAndClearedByAPress : Obligations.LatchIsSetByKeyWaitAndClearedByAPress := by
  refine ⟨?_, ?_, ?_, ?_, ?_, ?_⟩
  · exact fun i s t x hl h => exec_latch_eq_some_iff hl h
  · exact fun e s t x hl h ht => event_sets_latch hl h ht
  · exact fun s r hl => stepWith_of_latch hl
  · exact fun e s t r hf hl h => event_of_latch hf hl h
  · exact fun k s r hf hl => ⟨_, rfl, keyEvent_press_resolves hf hl⟩
  · intro rom t h
    obtain ⟨-, rfl⟩ := load_eq_next h
    rfl

end Sys2Proof.Machine
end

section
/-!
PROOFS. One step in terms of the bytes that exist (spec/30_encoding.md R70, spec/60_exceptions.md R211, R212): what it fetches, what
it does once the word is known, and O1, assembled from these.
-/

namespace Sys2Proof.Machine

/-- Two bytes that exist at `PC` and `PC + 1` are fetched as their big-endian word. -/
theorem State.fetch_of_memRead {s : State} {hi lo : Byte} (hhi : s.memRead s.pc.toNat = some hi)
    (hlo : s.memRead (s.pc.toNat + 1) = some lo) : s.fetch = .ok (wordOfBytes hi lo) := by
  obtain ⟨-, rfl⟩ := State.memRead_eq_some.mp hhi
  obtain ⟨hpc, rfl⟩ := State.memRead_eq_some.mp hlo
  exact State.fetch_of_inRange (by omega)

/-- A word is the big-endian word of two bytes exactly when its value is theirs. -/
theorem eq_wordOfBytes_iff {w : Word} {hi lo : Byte} :
    w = wordOfBytes hi lo ↔ w.toNat = hi.toNat * 256 + lo.toNat := by
  rw [← toNat_wordOfBytes, BitVec.toNat_inj]

/-- A running step executes the instruction that the fetched word decodes to, `PC` already advanced. -/
theorem step_of_decode_ok {s : State} {w : Word} {i : Instr} (hf : s.fault = none) (hl : s.latch = none)
    (hw : s.fetch = .ok w) (hi : decode w = .ok i) : step s = exec i s.advancePc := by
  have hd : decodeWith Params.default.strictXY0 w Params.default.opmap = some i := decode_eq_ok.mp hi
  rw [step_eq, stepWith_of_fetch hf hl hw, hd]

/-- A running step whose fetched word does not decode records that word, `PC` already advanced. -/
theorem step_of_decode_error {s : State} {w : Word} {e : DecodeError} (hf : s.fault = none) (hl : s.latch = none)
    (hw : s.fetch = .ok w) (he : decode w = .error e) : step s = .next (s.advancePc.raise (.decodeFailure w)) := by
  have hd : decodeWith Params.default.strictXY0 w Params.default.opmap = none := (decode_eq_error.mp he).1
  rw [step_eq, stepWith_of_fetch hf hl hw, hd]

/-- A running step whose first byte does not exist reports the address of that byte. -/
theorem step_of_no_first_byte {s : State} (hf : s.fault = none) (hl : s.latch = none)
    (h : s.memRead s.pc.toNat = none) : step s = .next (s.raise (.memoryOutOfRange s.pc.toNat)) := by
  have hpc : 0x1000 ≤ s.pc.toNat := State.memRead_eq_none.mp h
  rw [step_eq, stepWith_of_outOfRange hf hl (by omega), max_eq_left hpc]

/-- A running step whose second byte alone does not exist has `PC` at 0xFFF, and reports 0x1000. -/
theorem step_of_no_second_byte {s : State} {hi : Byte} (hf : s.fault = none) (hl : s.latch = none)
    (hhi : s.memRead s.pc.toNat = some hi) (h : s.memRead (s.pc.toNat + 1) = none) :
    step s = .next (s.raise (.memoryOutOfRange (s.pc.toNat + 1))) := by
  have hlt : s.pc.toNat < 0x1000 := (State.memRead_eq_some.mp hhi).1
  have hge : 0x1000 ≤ s.pc.toNat + 1 := State.memRead_eq_none.mp h
  have haddr : max s.pc.toNat 0x1000 = s.pc.toNat + 1 := by omega
  rw [step_eq, stepWith_of_outOfRange hf hl (by omega), haddr]

/-- Settles O1, by which of the two bytes exist and whether their word decodes. -/
theorem stepRunsDecodedInstruction : Obligations.StepRunsDecodedInstruction := by
  intro s hf hl
  refine ⟨fun hi lo w hhi hlo hw => ?_, step_of_no_first_byte hf hl, fun _ => step_of_no_second_byte hf hl⟩
  obtain rfl := eq_wordOfBytes_iff.mpr hw
  have hfetch := State.fetch_of_memRead hhi hlo
  exact ⟨fun _ => step_of_decode_ok hf hl hfetch, fun _ => step_of_decode_error hf hl hfetch⟩

end Sys2Proof.Machine
end

section
/-!
PROOFS. The jump and the immediate skips (spec/40_control.md R103, R105, R106): the address a jump goes to, what a skip does on
either value of its condition, and O19 and O20, assembled from these.
-/

namespace Sys2Proof.Machine

/-! ### The jump -/

/-- No `OPMAP` assigns the top nibble 1 (R88): such a word is a jump under all of them. -/
theorem decodeWith_wordNNN_one (strict : Bool) (nnn : Addr12) (m : OpMap) :
    decodeWith strict (wordNNN 0x1 nnn) m = some (.jp nnn) := by
  have hop : opOf (wordNNN 0x1 nnn) = 0x1 := opOf_wordNNN 0x1 nnn
  rw [decodeWith, if_neg (by rw [hop]; decide), if_pos hop, nnnOf_wordNNN]

/-- A 12-bit address keeps its value as a 16-bit one. -/
@[simp] theorem toNat_addrOf (nnn : Addr12) : (addrOf nnn).toNat = nnn.toNat :=
  BitVec.toNat_setWidth_of_le (by decide)

theorem exec_jp (nnn : Addr12) (s : State) : exec (.jp nnn) s = .next (s.jumpTo (addrOf nnn)) := rfl

/-- Settles O19, by the decoder on a word of top nibble 1 and the jump to its address. -/
theorem jumpSetsPc : Obligations.JumpSetsPc := by
  intro nnn s
  exact ⟨decode_eq_ok.mpr (decodeWith_wordNNN_one false nnn opmap), s.jumpTo (addrOf nnn), exec_jp nnn s,
    toNat_addrOf nnn, rfl⟩

/-! ### The immediate skips -/

/-- A skip whose condition holds adds 2 to `PC`. -/
theorem State.skipIf_of_true {c : Bool} (s : State) (h : c = true) : s.skipIf c = { s with pc := s.pc + 2 } := by
  rw [State.skipIf_eq, if_pos h]

/-- A skip whose condition fails changes nothing. -/
theorem State.skipIf_of_false {c : Bool} (s : State) (h : c = false) : s.skipIf c = s := by
  rw [State.skipIf_eq, if_neg (Bool.eq_false_iff.mp h)]

theorem exec_seImm (x : Reg) (nn : Byte) (s : State) :
    exec (.seImm x nn) s = .next (s.skipIf (s.reg x == nn)) := rfl

theorem exec_sneImm (x : Reg) (nn : Byte) (s : State) :
    exec (.sneImm x nn) s = .next (s.skipIf (s.reg x != nn)) := rfl

/-- Settles O20: whether `V[x]` and `nn` are equal or not, one of the two conditions holds and the other fails. -/
theorem immediateSkipsFollowTheirCondition : Obligations.ImmediateSkipsFollowTheirCondition := by
  intro x nn s
  rw [exec_seImm, exec_sneImm]
  constructor
  · intro heq
    rw [s.skipIf_of_true (beq_iff_eq.mpr heq), s.skipIf_of_false (bne_eq_false_iff_eq.mpr heq)]
    exact ⟨rfl, rfl⟩
  · intro hne
    rw [s.skipIf_of_false (beq_eq_false_iff_ne.mpr hne), s.skipIf_of_true (bne_iff_ne.mpr hne)]
    exact ⟨rfl, rfl⟩

end Sys2Proof.Machine
end

section
/-!
PROOFS. Register loads and the ALU (spec/41_alu.md): an instruction that writes one register, an instruction that writes a result and
then the flag, the flags as numbers, and O24 to O28, assembled from these.
-/

namespace Sys2Proof.Machine

/-! ### What the two kinds of write leave -/

/-- One register written: it reads as the byte, and nothing else differs. -/
theorem writes_only_reg {i : Instr} {s : State} {x : Reg} {b : Byte} (h : exec i s = .next (s.setReg x b)) :
    ∃ t, exec i s = .next t ∧ t.reg x = b ∧ s.OnlyRegWritten t x := by
  refine ⟨s.setReg x b, h, ?_, rfl, fun r hr => ?_⟩
  · rw [State.reg_setReg, if_pos rfl]
  · rw [State.reg_setReg, if_neg hr]

/-- A result of value `n`, then a flag of value `f`: the result stays unless it stands in `VF`, the flag always does, and nothing
else differs (R120). -/
theorem writes_result_and_flag {i : Instr} {s : State} {x : Reg} {result : Byte} {flag : Bool} {n f : Nat}
    (h : exec i s = .next (s.setResultAndFlag x result flag)) (hn : result.toNat = n) (hf : (flagByte flag).toNat = f) :
    ∃ t, exec i s = .next t ∧ (x ≠ VF → (t.reg x).toNat = n) ∧ (t.reg VF).toNat = f ∧ s.OnlyRegAndFlagWritten t x := by
  refine ⟨s.setResultAndFlag x result flag, h, fun hx => ?_, ?_, s.setResultAndFlag_eq x result flag, fun r hr hv => ?_⟩
  · rw [State.reg_setResultAndFlag, if_neg hx, if_pos rfl, hn]
  · rw [State.reg_setResultAndFlag, if_pos rfl, hf]
  · rw [State.reg_setResultAndFlag, if_neg hv, if_neg hr]

/-! ### Immediates -/

theorem decode_wordXNN_six (x : Reg) (nn : Byte) : decode (wordXNN 0x6 x nn) = .ok (.ldImm x nn) :=
  decode_eq_ok.mpr (by simp [decodeWith, opmap])

theorem decode_wordXNN_seven (x : Reg) (nn : Byte) : decode (wordXNN 0x7 x nn) = .ok (.addImm x nn) :=
  decode_eq_ok.mpr (by simp [decodeWith, opmap])

theorem exec_ldImm (x : Reg) (nn : Byte) (s : State) : exec (.ldImm x nn) s = .next (s.setReg x nn) := rfl

theorem exec_addImm (x : Reg) (nn : Byte) (s : State) :
    exec (.addImm x nn) s = .next (s.setReg x (s.reg x + nn)) := rfl

/-- Settles O24, by the decoder on a word of top nibble 6 and the one write. -/
theorem loadImmediateWritesItsRegister : Obligations.LoadImmediateWritesItsRegister := by
  intro x nn s
  exact ⟨decode_wordXNN_six x nn, writes_only_reg (exec_ldImm x nn s)⟩

/-- Settles O25, by the decoder on a word of top nibble 7 and the one write, of a sum that wraps. -/
theorem addImmediateWrapsWithoutFlag : Obligations.AddImmediateWrapsWithoutFlag := by
  intro x nn s
  obtain ⟨t, ht, hreg, honly⟩ := writes_only_reg (exec_addImm x nn s)
  refine ⟨decode_wordXNN_seven x nn, t, ht, ?_, honly⟩
  rw [hreg, BitVec.toNat_add]

/-! ### Copy and logic -/

theorem exec_ldReg (x y : Reg) (s : State) : exec (.ldReg x y) s = .next (s.setReg x (s.reg y)) := rfl

theorem exec_orReg (x y : Reg) (s : State) : exec (.orReg x y) s = .next (s.setReg x (s.reg x ||| s.reg y)) := rfl

theorem exec_andReg (x y : Reg) (s : State) : exec (.andReg x y) s = .next (s.setReg x (s.reg x &&& s.reg y)) := rfl

theorem exec_xorReg (x y : Reg) (s : State) : exec (.xorReg x y) s = .next (s.setReg x (s.reg x ^^^ s.reg y)) := rfl

/-- Settles O26: each of the four writes `V[x]` alone. -/
theorem copyAndLogicWriteNoFlag : Obligations.CopyAndLogicWriteNoFlag := by
  intro x y s
  exact ⟨writes_only_reg (exec_ldReg x y s), writes_only_reg (exec_orReg x y s), writes_only_reg (exec_andReg x y s),
    writes_only_reg (exec_xorReg x y s)⟩

/-! ### Sum and carry -/

/-- The carry as the flag holds it (R127). -/
theorem toNat_flagByte_carryOut (a b : Byte) :
    (flagByte (carryOut a b)).toNat = if a.toNat + b.toNat > 255 then 1 else 0 := by
  by_cases h : 255 < a.toNat + b.toNat <;> simp [flagByte, carryOut, h]

theorem exec_addReg (x y : Reg) (s : State) :
    exec (.addReg x y) s = .next (s.setResultAndFlag x (s.reg x + s.reg y) (carryOut (s.reg x) (s.reg y))) := rfl

/-- Settles O27: the result is the wrapped sum, the flag the carry. -/
theorem addRegistersSetsCarry : Obligations.AddRegistersSetsCarry := by
  intro x y s
  exact writes_result_and_flag (exec_addReg x y s) (BitVec.toNat_add _ _) (toNat_flagByte_carryOut _ _)

/-! ### Difference and not-borrow -/

/-- Not-borrow as the flag holds it (R128, R130). -/
theorem toNat_flagByte_notBorrow (a b : Byte) :
    (flagByte (notBorrow a b)).toNat = if a.toNat < b.toNat then 0 else 1 := by
  by_cases h : a.toNat < b.toNat <;> simp [flagByte, notBorrow, h]

/-- The difference of two bytes wraps modulo 256. -/
theorem toNat_byte_sub (a b : Byte) : (a - b).toNat = (a.toNat + 256 - b.toNat) % 256 := by
  rw [BitVec.toNat_sub]
  omega

theorem exec_sub (x y : Reg) (s : State) :
    exec (.sub x y) s = .next (s.setResultAndFlag x (s.reg x - s.reg y) (notBorrow (s.reg x) (s.reg y))) := rfl

theorem exec_subn (x y : Reg) (s : State) :
    exec (.subn x y) s = .next (s.setResultAndFlag x (s.reg y - s.reg x) (notBorrow (s.reg y) (s.reg x))) := rfl

/-- Settles O28: in both, the result is the wrapped difference and the flag its not-borrow; SUBN has the operands swapped. -/
theorem subtractSetsNotBorrow : Obligations.SubtractSetsNotBorrow := by
  intro x y s
  exact ⟨writes_result_and_flag (exec_sub x y s) (toNat_byte_sub _ _) (toNat_flagByte_notBorrow _ _),
    writes_result_and_flag (exec_subn x y s) (toNat_byte_sub _ _) (toNat_flagByte_notBorrow _ _)⟩

end Sys2Proof.Machine
end

section
/-!
PROOFS. The address register (spec/42_index_memory.md R150, R151): an instruction that writes `I` alone, the two words written as
numbers, and O31, assembled from these.
-/

namespace Sys2Proof.Machine

/-! ### What a write of `I` leaves -/

/-- `I` written with a word of value `n`: it has that value, and nothing else differs. -/
theorem writes_only_i {i : Instr} {s : State} {w : Word} {n : Nat} (h : exec i s = .next (s.setI w)) (hn : w.toNat = n) :
    ∃ t, exec i s = .next t ∧ t.i.toNat = n ∧ t = { s with i := t.i } :=
  ⟨s.setI w, h, hn, rfl⟩

/-! ### Load and add -/

/-- A byte keeps its value as a 16-bit word. -/
@[simp] theorem toNat_wordOf (b : Byte) : (wordOf b).toNat = b.toNat :=
  BitVec.toNat_setWidth_of_le (by decide)

/-- The sum of a word and a byte wraps modulo 65536 (R151). -/
theorem toNat_add_wordOf (w : Word) (b : Byte) : (w + wordOf b).toNat = (w.toNat + b.toNat) % 65536 := by
  rw [BitVec.toNat_add, toNat_wordOf]

theorem exec_ldI (nnn : Addr12) (s : State) : exec (.ldI nnn) s = .next (s.setI (addrOf nnn)) := rfl

theorem exec_addI (x : Reg) (s : State) : exec (.addI x) s = .next (s.setI (s.i + wordOf (s.reg x))) := rfl

/-- Settles O31: both write `I` alone, one the zero-extended address, the other the sum that wraps. -/
theorem indexLoadAndAdd : Obligations.IndexLoadAndAdd := by
  intro nnn x s
  exact ⟨writes_only_i (exec_ldI nnn s) (toNat_addrOf nnn), writes_only_i (exec_addI x s) (toNat_add_wordOf s.i (s.reg x))⟩

end Sys2Proof.Machine
end

section
/-!
PROOFS. The display (spec/43_display.md R171, R173): a draw as an exclusive or that undoes itself, what DRW answers when its sprite
lies inside memory, and O39 and O42, assembled from these.
-/

namespace Sys2Proof.Machine

/-! ### Clear -/

theorem decode_00E0 : decode 0x00E0 = .ok .cls := decode_eq_ok.mpr (by decide)

theorem exec_cls (s : State) : exec .cls s = .next { s with fb := Frame.cleared } := rfl

/-- Settles O39, by the decoder on the fixed word and the one write, of the cleared frame. -/
theorem clearScreenUnsetsEveryPixel : Obligations.ClearScreenUnsetsEveryPixel := by
  intro s
  exact ⟨decode_00E0, { s with fb := Frame.cleared }, exec_cls s, Frame.getPixel_cleared, rfl⟩

/-! ### The sprite engine as an exclusive or -/

/-- The engine started with a clear flag raises it exactly when a set pixel became unset (R173). -/
theorem drawRows_collides_iff (fb : Frame) (px py : Nat) {rows : List Byte} (hlen : rows.length ≤ 32) :
    (drawRows (fb, false) px py rows).2 = true ↔
      ∃ c r, fb.getPixel c r = true ∧ (drawRows (fb, false) px py rows).1.getPixel c r = false := by
  obtain ⟨hpix, hflag⟩ := drawRows_spec rows (fb, false) px py hlen
  rw [hflag]
  constructor
  · rintro (h | ⟨c, r, hc, hset⟩)
    · cases h
    · exact ⟨c, r, hset, by rw [(hpix c r).1 hc, hset]; rfl⟩
  · rintro ⟨c, r, hset, hunset⟩
    have hc : rowsCover rows px py c r := by
      by_contra hc
      rw [(hpix c r).2 hc, hset] at hunset
      cases hunset
    exact .inr ⟨c, r, hc, hset⟩

/-- The same rows drawn again at the same place restore the frame: each covered cell is flipped twice, every other cell never
(R173). -/
theorem drawRows_drawRows (fb : Frame) (px py : Nat) {rows : List Byte} (hlen : rows.length ≤ 32) :
    (drawRows ((drawRows (fb, false) px py rows).1, false) px py rows).1 = fb := by
  obtain ⟨hfirst, -⟩ := drawRows_spec rows (fb, false) px py hlen
  obtain ⟨hsecond, -⟩ := drawRows_spec rows ((drawRows (fb, false) px py rows).1, false) px py hlen
  refine Frame.ext_getPixel fun c r => ?_
  by_cases hc : rowsCover rows px py c r
  · rw [(hsecond c r).1 hc, (hfirst c r).1 hc, Bool.not_not]
  · rw [(hsecond c r).2 hc, (hfirst c r).2 hc]

/-! ### What DRW answers -/

/-- The frame and the flag that `DRW Vx,Vy,n` draws when every sprite byte exists. -/
def State.drawing (s : State) (x y : Reg) (n : Nibble) : Frame × Bool :=
  drawRows (s.fb, false) (s.reg x).toNat (s.reg y).toNat (s.mem.readBytes s.dataBase n.toNat)

/-- A sprite has at most 15 rows, so it covers no cell twice. -/
theorem sprite_length_le (s : State) (n : Nibble) : (s.mem.readBytes s.dataBase n.toNat).length ≤ 32 := by
  have hn : n.toNat < 16 := n.isLt
  rw [Memory.readBytes_length]
  omega

/-- A sprite inside memory is drawn, and the flag is written last. -/
theorem exec_drw_of_inRange {x y : Reg} {n : Nibble} {s : State} (h : n.toNat = 0 ∨ s.i.toNat + n.toNat ≤ 0x1000) :
    exec (.drw x y n) s =
      .next (State.setReg { s with fb := (s.drawing x y n).1 } VF (flagByte (s.drawing x y n).2)) :=
  drawSprite_of_inRange _ _ s h

theorem flagByte_eq_one_iff (b : Bool) : flagByte b = 1 ↔ b = true := by cases b <;> decide

theorem flagByte_eq_zero_iff (b : Bool) : flagByte b = 0 ↔ b = false := by cases b <;> decide

/-- A draw inside memory, seen from outside: the frame it leaves, and `VF` 1 exactly when a set pixel became unset, else 0. -/
theorem exec_drw_reports_collision {x y : Reg} {n : Nibble} {s : State}
    (h : n.toNat = 0 ∨ s.i.toNat + n.toNat ≤ 0x1000) :
    ∃ t, exec (.drw x y n) s = .next t ∧ t.fb = (s.drawing x y n).1 ∧
      (t.reg VF = 1 ↔ ∃ c r, getPixel s c r = true ∧ getPixel t c r = false) ∧
      (t.reg VF = 0 ↔ ∀ c r, getPixel s c r = true → getPixel t c r = true) := by
  have hcoll := drawRows_collides_iff s.fb (s.reg x).toNat (s.reg y).toNat (sprite_length_le s n)
  refine ⟨_, exec_drw_of_inRange h, rfl, ?_, ?_⟩
  · rw [State.reg_setReg, if_pos rfl, flagByte_eq_one_iff]
    exact hcoll
  · rw [State.reg_setReg, if_pos rfl, flagByte_eq_zero_iff, ← Bool.not_eq_true, State.drawing, hcoll]
    simp only [not_exists, not_and, Bool.not_eq_false]
    rfl

/-- A draw from a state with the drawn frame and the same sprite and place leaves the frame that stood before the first. -/
theorem State.drawing_again {x y : Reg} {n : Nibble} {s s' : State} (hfb : s'.fb = (s.drawing x y n).1)
    (hmem : s'.mem = s.mem) (hi : s'.i = s.i) (hx : s'.reg x = s.reg x) (hy : s'.reg y = s.reg y) :
    (s'.drawing x y n).1 = s.fb := by
  have hbase : s'.dataBase = s.dataBase := congrArg BitVec.toNat hi
  rw [State.drawing, hfb, hmem, hbase, hx, hy]
  exact drawRows_drawRows s.fb _ _ (sprite_length_le s n)

/-! ### Wrapping -/

/-- A coordinate one screen further names the same cell (R173). -/
theorem getPixel_wraps (s : State) (px py : Nat) :
    getPixel s (px + 64) py = getPixel s px py ∧ getPixel s px (py + 32) = getPixel s px py :=
  ⟨Frame.getPixel_congr _ (Nat.add_mod_right px 64) rfl, Frame.getPixel_congr _ rfl (Nat.add_mod_right py 32)⟩

/-- Settles O42: the second draw is again a draw inside memory, whose collisions are the cells that the first one set, since it
leaves the picture that the first one started from. -/
theorem drawingTwiceRestoresThePicture : Obligations.DrawingTwiceRestoresThePicture := by
  refine ⟨fun x y n s hin => ?_, getPixel_wraps⟩
  obtain ⟨t, ht, hfb, hone, hzero⟩ := exec_drw_reports_collision (x := x) (y := y) hin
  refine ⟨t, ht, hone, hzero, fun s' hfb' hmem hi hx hy => ?_⟩
  obtain ⟨u, hu, hfbu, honeu, -⟩ := exec_drw_reports_collision (x := x) (y := y) (s := s') (hi ▸ hin)
  have hback : ∀ c r, getPixel u c r = getPixel s c r := fun c r =>
    congrArg (·.getPixel c r) (hfbu.trans (State.drawing_again (hfb'.trans hfb) hmem hi hx hy))
  have hstart : ∀ c r, getPixel s' c r = getPixel t c r := fun c r => congrArg (·.getPixel c r) hfb'
  refine ⟨u, hu, hback, ?_⟩
  simp only [honeu, hback, hstart, and_comm]

end Sys2Proof.Machine
end

section
/-!
PROOFS. Timer moves and the key wait (spec/44_keys_timers.md R192 to R195): what each of the four answers, what a tick and a key event
make of the latched state, and O44 and O45, assembled from these.
-/

namespace Sys2Proof.Machine

/-! ### Timer moves -/

theorem exec_ldVxDt (x : Reg) (s : State) : exec (.ldVxDt x) s = .next (s.setReg x s.dt) := rfl

theorem exec_ldDtVx (x : Reg) (s : State) : exec (.ldDtVx x) s = .next { s with dt := s.reg x } := rfl

theorem exec_ldStVx (x : Reg) (s : State) : exec (.ldStVx x) s = .next { s with st := s.reg x } := rfl

/-- Settles O44: the read writes `V[x]` alone, and each of the other two one timer. -/
theorem timerMovesCopyAByte : Obligations.TimerMovesCopyAByte := by
  intro x s
  exact ⟨writes_only_reg (exec_ldVxDt x s), exec_ldDtVx x s, exec_ldStVx x s⟩

/-! ### The key wait -/

theorem decode_wordXNN_keyWait (x : Reg) : decode (wordXNN 0xF x 0x0A) = .ok (.ldVxK x) :=
  decode_eq_ok.mpr (by simp [decodeWith, decodeMisc, opmap])

theorem exec_ldVxK (x : Reg) (s : State) : exec (.ldVxK x) s = .next (s.awaitKey x) := rfl

/-! ### What ticks and key events change -/

/-- A timer goes down by 1, and stays at 0 (R221). -/
theorem toNat_timerDown (t : Byte) : (timerDown t).toNat = t.toNat - 1 := by
  unfold timerDown
  split
  · next h => rw [h]; rfl
  · next h => bv_omega

/-- A tick of a core that is not halted counts both timers. -/
theorem tick_of_running {s : State} (hf : s.fault = none) :
    tick s = { s with dt := timerDown s.dt, st := timerDown s.st } := by
  rw [tick, hf]

/-- So each timer's value goes down by 1, and stays at 0. -/
theorem tick_counts {s : State} (hf : s.fault = none) :
    (tick s).dt.toNat = s.dt.toNat - 1 ∧ (tick s).st.toNat = s.st.toNat - 1 := by
  rw [tick_of_running hf]
  exact ⟨toNat_timerDown s.dt, toNat_timerDown s.st⟩

/-- No key event moves `PC`. -/
@[simp] theorem keyEvent_pc (k : Key) (pressed : Bool) (s : State) : (keyEvent k pressed s).pc = s.pc := by
  rcases keyEvent_cases k pressed s with ⟨-, h⟩ | ⟨-, -, h⟩ | ⟨-, -, _, -, h⟩ <;> rw [h] <;> rfl

/-- Settles O45, by the decoder on Fx0A and the state awaiting a key in `x`, on which each event is taken in turn. -/
theorem keyWaitLatchesUntilAPress : Obligations.KeyWaitLatchesUntilAPress := by
  intro x k s hf
  have hlatch : (s.awaitKey x).latch = some x := State.awaitKey_latch s x
  have hfault : (s.awaitKey x).fault = none := (State.awaitKey_fault s x).trans hf
  obtain ⟨hdt, hst⟩ := tick_counts hfault
  obtain ⟨hrelease, -⟩ := keyEvent_release_latch_v k (s.awaitKey x)
  obtain ⟨hclear, hreg⟩ := keyEvent_press_resolves (k := k) hfault hlatch
  exact ⟨decode_wordXNN_keyWait x, s.awaitKey x, exec_ldVxK x s, rfl, stepWith_of_latch hlatch,
    (tick_latch _).trans hlatch, hdt, hst, hrelease.trans hlatch, hclear, hreg, keyEvent_pc k true _⟩

end Sys2Proof.Machine
end

section
/-!
PROOFS. Transfers out of range and ticks (spec/60_exceptions.md R212, R221): what DRW, LD B,Vx, LD [I],Vx and LD Vx,[I] do with a byte
above 0xFFF, what a tick does to a halted core, and O15 and O46, assembled from these.
-/

namespace Sys2Proof.Machine

/-! ### The four transfers by their shared operations -/

theorem exec_drw (x y : Reg) (n : Nibble) (s : State) :
    exec (.drw x y n) s = drawSprite s.dataBase n.toNat (s.reg x).toNat (s.reg y).toNat s := rfl

theorem exec_ldB (x : Reg) (s : State) : exec (.ldB x) s = storeBytes s.dataBase (bcdDigits (s.reg x)) s := rfl

theorem exec_stRegs (x : Reg) (s : State) : exec (.stRegs x) s = storeBytes s.dataBase (s.regsUpTo x) s := rfl

theorem exec_ldRegs (x : Reg) (s : State) : exec (.ldRegs x) s = loadRegsFrom s.dataBase x s := rfl

@[simp] theorem bcdDigits_length (b : Byte) : (bcdDigits b).length = 3 := rfl

@[simp] theorem State.regsUpTo_length (s : State) (x : Reg) : (s.regsUpTo x).length = x.val + 1 := by
  have hx : x.val < 16 := x.isLt
  rw [State.regsUpTo, List.length_take, Vector.length_toList]
  omega

/-! ### A transfer out of range -/

/-- An instruction that stops in `u`, with `PC` and `I` still those of `s`, and reports the first address above 0xFFF. -/
theorem stops_out_of_range {i : Instr} {s u : State}
    (h : exec i s = .next (u.raise (.memoryOutOfRange (max s.dataBase Config.memSize)))) (hpc : u.pc = s.pc) (hi : u.i = s.i) :
    ∃ t, exec i s = .next t ∧ t.fault = some (.memoryOutOfRange (max s.i.toNat 0x1000)) ∧ t.pc = s.pc ∧ t.i = s.i :=
  ⟨_, h, State.raise_fault u _, hpc, hi⟩

/-- A store based at `I` of which a byte does not exist. -/
theorem store_stops_out_of_range {i : Instr} {s : State} {bs : List Byte} (h : exec i s = storeBytes s.dataBase bs s)
    (h0 : bs.length ≠ 0) (hout : 0x1000 < s.i.toNat + bs.length) :
    ∃ t, exec i s = .next t ∧ t.fault = some (.memoryOutOfRange (max s.i.toNat 0x1000)) ∧ t.pc = s.pc ∧ t.i = s.i :=
  stops_out_of_range (h.trans (storeBytes_of_outOfRange s h0 hout)) (s.scrambleMem_pc _ _) (s.scrambleMem_i _ _)

/-- Settles O15: in each of the four, a last byte above 0xFFF is an access that reaches past the end of memory. -/
theorem outOfRangeTransfersReportTheFirstAddress : Obligations.OutOfRangeTransfersReportTheFirstAddress := by
  intro s x y n
  refine ⟨fun hn hout => ?_, fun hout => ?_, fun hout => ?_, fun hout => ?_⟩
  · have hend : Config.memSize < s.dataBase + n.toNat := by rw [Config.memSize, State.dataBase]; omega
    exact stops_out_of_range ((exec_drw x y n s).trans (drawSprite_of_outOfRange _ _ s hn.ne' hend))
      (s.scrambleFrame_pc _ _ _ _) (s.scrambleFrame_i _ _ _ _)
  · refine store_stops_out_of_range (exec_ldB x s) ?_ ?_ <;> rw [bcdDigits_length] <;> omega
  · refine store_stops_out_of_range (exec_stRegs x s) ?_ ?_ <;> rw [State.regsUpTo_length] <;> omega
  · have hend : Config.memSize < s.dataBase + (x.val + 1) := by rw [Config.memSize, State.dataBase]; omega
    exact stops_out_of_range ((exec_ldRegs x s).trans (loadRegsFrom_of_outOfRange s hend))
      (s.scrambleRegs_pc _) (s.scrambleRegs_i _)

/-! ### Ticks -/

/-- A halted core counts no timer (D13). -/
theorem tick_of_fault {s : State} {f : Fault} (hf : s.fault = some f) : tick s = s := by
  rw [tick, hf]

/-- Settles O46, by whether a fault is recorded. -/
theorem tickCountsBothTimersDown : Obligations.TickCountsBothTimersDown := by
  intro s
  constructor
  · intro hf
    obtain ⟨hdt, hst⟩ := tick_counts hf
    exact ⟨hdt, hst, tick_frame s⟩
  · intro hf
    obtain ⟨f, hf⟩ := Option.ne_none_iff_exists'.mp hf
    exact tick_of_fault hf

end Sys2Proof.Machine
end

section
/-!
PROOFS. The encoding (spec/30_encoding.md R71 to R82, R88): a word from its fields, what a decoded word says of its bits, the
labels of an OPMAP told apart by the decoder, and O58, O8, O9, O10 and O11, assembled from these.
-/

namespace Sys2Proof

/-! ### Decoding what was encoded -/

/-- A list without repeats, said in both orders of each pair, so that a label differs from each one the decoder tests before it,
whichever of the two is listed first. -/
theorem nodup_both_orders {α : Type} {labels : List α} (h : labels.Nodup) : labels.Nodup ∧ labels.reverse.Nodup :=
  ⟨h, List.nodup_reverse.mpr h⟩

/-- What `OpMap.wf` says, one list of labels after another. -/
theorem OpMap.wf_iff (m : OpMap) : m.wf = true ↔
    [0x0, 0x1, 0x6, 0x7, 0xF, m.call, m.seImm, m.sneImm, m.seReg, m.sneReg, m.alu, m.ldI, m.jpV0, m.rnd, m.drw, m.keys].Nodup ∧
    [m.ldReg, m.orReg, m.andReg, m.xorReg, m.addReg, m.sub, m.shr, m.subn, m.shl].Nodup ∧
    [m.skp, m.sknp].Nodup ∧
    [0x0A, m.ldVxDt, m.ldDtVx, m.ldStVx, m.addI, m.ldF, m.ldB, m.stRegs, m.ldRegs].Nodup ∧
    opOf m.ret = 0x0 ∧ m.ret ≠ 0x00E0 := by
  simp only [OpMap.wf, Bool.and_eq_true, decide_eq_true_eq, and_assoc, opOf]

theorem decodeWith_of_opOf_eq_zero (strict : Bool) {w : Word} (m : OpMap) (h : opOf w = 0x0) :
    decodeWith strict w m = some (decodeZero m w) :=
  if_pos h

/-- Each label leads the decoder to the instruction it was taken from: the labels tested before it are others. -/
theorem decodeWith_encodeWith {m : OpMap} {i : Instr} (strict : Bool) (hm : m.wf = true)
    (hsys : ∀ nnn, i = .sys nnn → wordNNN 0x0 nnn ≠ 0x00E0 ∧ wordNNN 0x0 nnn ≠ m.ret) :
    decodeWith strict (encodeWith m i) m = some i := by
  obtain ⟨hop, halu, hkeys, hmisc, hret, hcls⟩ := m.wf_iff.mp hm
  have hop := nodup_both_orders hop
  have halu := nodup_both_orders halu
  have hkeys := nodup_both_orders hkeys
  have hmisc := nodup_both_orders hmisc
  simp only [BitVec.ofNat_eq_ofNat, List.nodup_cons, List.mem_cons, BitVec.zero_eq_one_iff, OfNat.ofNat_ne_zero,
    BitVec.reduceEq, List.not_mem_nil, or_false, false_or, not_or, not_false_eq_true, List.nodup_nil, and_self,
    and_true, List.reverse_cons, List.reverse_nil, List.nil_append, List.cons_append, or_self,
    BitVec.one_eq_zero_iff] at hop halu hkeys hmisc
  cases i
  case cls => exact decodeWith_of_opOf_eq_zero strict m (w := 0x00E0) (by decide)
  case ret => rw [encodeWith, decodeWith_of_opOf_eq_zero strict m hret, decodeZero, if_neg hcls, if_pos rfl]
  case sys nnn =>
    obtain ⟨hne, hne'⟩ := hsys nnn rfl
    rw [encodeWith, decodeWith_of_opOf_eq_zero strict m (opOf_wordNNN 0x0 nnn), decodeZero, if_neg hne, if_neg hne',
      nnnOf_wordNNN]
  all_goals simp [decodeWith, encodeWith, decodeXY, decodeAlu, decodeKeys, decodeMisc, hop, halu, hkeys, hmisc]

/-- Settles O58: the default OPMAP by evaluation, any other by the decoder on its labels. -/
theorem everyOpmapDecodesWhatItEncodes : Obligations.EveryOpmapDecodesWhatItEncodes :=
  ⟨by decide, fun _ strict _ hm hsys => decodeWith_encodeWith strict hm hsys⟩

/-- A well-formed SYS has neither of the two words that its format shares (R102). -/
theorem wordNNN_ne_of_wf {nnn : Addr12} (h : (Instr.sys nnn).wf = true) :
    wordNNN 0x0 nnn ≠ 0x00E0 ∧ wordNNN 0x0 nnn ≠ 0x00EE := by
  simp only [Instr.wf, Bool.and_eq_true, bne_iff_ne, ne_eq] at h
  obtain ⟨hcls, hret⟩ := h
  constructor
  · intro heq
    exact hcls ((nnnOf_wordNNN 0x0 nnn).symm.trans (congrArg nnnOf heq))
  · intro heq
    exact hret ((nnnOf_wordNNN 0x0 nnn).symm.trans (congrArg nnnOf heq))

theorem decode_encode {i : Instr} (h : i.wf = true) : decode (encode i) = .ok i := by
  refine decode_eq_ok.mpr (decodeWith_encodeWith false (by decide) ?_)
  rintro nnn rfl
  exact wordNNN_ne_of_wf h

/-- Settles O8: the bytes of the word, read back big-endian, are the word. -/
theorem decodeOfEncodeIsTheInstruction : Obligations.DecodeOfEncodeIsTheInstruction := by
  intro i hi
  refine ⟨decode_encode hi, fun rest => ?_⟩
  simp [encodeBytes, decodeBytes, decode_encode hi]

/-! ### A word as the format of its fields -/

theorem wordNNN_of_fields {w : Word} {op : Nibble} (hop : opOf w = op) : wordNNN op (nnnOf w) = w := by
  apply BitVec.eq_of_toNat_eq
  rw [← hop, toNat_wordNNN, toNat_opOf, toNat_nnnOf]
  omega

theorem wordXNN_of_fields {w : Word} {op : Nibble} {nn : Byte} (hop : opOf w = op) (hnn : nnOf w = nn) :
    wordXNN op (Reg.ofNibble (xOf w)) nn = w := by
  apply BitVec.eq_of_toNat_eq
  rw [← hop, ← hnn, toNat_wordXNN, Reg.toNibble_ofNibble, toNat_opOf, toNat_xOf, toNat_nnOf]
  omega

theorem wordXYN_of_fields {w : Word} {op n : Nibble} (hop : opOf w = op) (hn : nOf w = n) :
    wordXYN op (Reg.ofNibble (xOf w)) (Reg.ofNibble (yOf w)) n = w := by
  apply BitVec.eq_of_toNat_eq
  rw [← hop, ← hn, toNat_wordXYN, Reg.toNibble_ofNibble, Reg.toNibble_ofNibble, toNat_opOf, toNat_xOf, toNat_yOf, toNat_nOf]
  omega

/-! ### The ignored bits -/

/-- A mask of a format is taken field by field. -/
theorem wordXYN_and_wordXYN (op op' : Nibble) (x x' y y' : Reg) (n n' : Nibble) :
    wordXYN op x y n &&& wordXYN op' x' y' n' =
      (op &&& op') ++ (x.toNibble &&& x'.toNibble) ++ (y.toNibble &&& y'.toNibble) ++ (n &&& n') := by
  unfold wordXYN
  exact BitVec.and_append.trans (by rw [BitVec.and_append, BitVec.and_append])

/-- The mask of the compare skips clears the low nibble (R80). -/
theorem wordXYN_and_FFF0 (op : Nibble) (x y : Reg) (n : Nibble) :
    wordXYN op x y n &&& 0xFFF0#16 = wordXYN op x y 0x0 := by
  have ones : ∀ a : Nibble, a &&& 0xF = a := by decide
  have zero : ∀ a : Nibble, a &&& 0x0 = 0x0 := by decide
  have h := wordXYN_and_wordXYN op 0xF x 0xF y 0xF n 0x0
  rwa [show Reg.toNibble 0xF = 0xF from rfl, ones, ones, ones, zero] at h

/-- The mask of the shifts clears the third nibble (R81). -/
theorem wordXYN_and_FF0F (op : Nibble) (x y : Reg) (n : Nibble) :
    wordXYN op x y n &&& 0xFF0F#16 = wordXYN op x 0 n := by
  have ones : ∀ a : Nibble, a &&& 0xF = a := by decide
  have zero : ∀ a : Nibble, a &&& 0x0 = 0x0 := by decide
  have h := wordXYN_and_wordXYN op 0xF x 0xF y 0x0 n 0xF
  rwa [show Reg.toNibble 0xF = 0xF from rfl, show Reg.toNibble 0x0 = 0x0 from rfl, ones, ones, ones, zero] at h

/-! ### Encoding what was decoded

`of_all_used` closes the case of an instruction that ignores no bit. -/

open Laws.CanonicalWord (of_all_used)

theorem encodeWith_decodeZero (m : OpMap) {w : Word} (hop : opOf w = 0x0) :
    encodeWith m (decodeZero m w) = w &&& usedBits (decodeZero m w) := by
  unfold decodeZero
  split_ifs with hcls hret
  · rw [hcls]; rfl
  · rw [hret]; exact (of_all_used m.ret).symm
  · exact (wordNNN_of_fields hop).trans (of_all_used w).symm

theorem encodeWith_of_decodeAlu {m : OpMap} {w : Word} {i : Instr} (hop : opOf w = m.alu)
    (h : decodeAlu m (Reg.ofNibble (xOf w)) (Reg.ofNibble (yOf w)) (nOf w) = some i) :
    encodeWith m i = w &&& usedBits i := by
  have all_used {n : Nibble} (hn : nOf w = n) :
      wordXYN m.alu (Reg.ofNibble (xOf w)) (Reg.ofNibble (yOf w)) n = w &&& 0xFFFF#16 :=
    (wordXYN_of_fields hop hn).trans (of_all_used w).symm
  have shifts {n : Nibble} (hn : nOf w = n) : wordXYN m.alu (Reg.ofNibble (xOf w)) 0 n = w &&& 0xFF0F#16 := by
    rw [← wordXYN_and_FF0F m.alu _ (Reg.ofNibble (yOf w)), wordXYN_of_fields hop hn]
  unfold decodeAlu at h
  split_ifs at h with hn hn hn hn hn hn hn hn hn <;> cases h
  · exact all_used hn
  · exact all_used hn
  · exact all_used hn
  · exact all_used hn
  · exact all_used hn
  · exact all_used hn
  · exact shifts hn
  · exact all_used hn
  · exact shifts hn

theorem encodeWith_of_decodeKeys {m : OpMap} {w : Word} {i : Instr} (hop : opOf w = m.keys)
    (h : decodeKeys m (Reg.ofNibble (xOf w)) (nnOf w) = some i) : encodeWith m i = w &&& usedBits i := by
  unfold decodeKeys at h
  split_ifs at h with hnn hnn <;> cases h <;> exact (wordXNN_of_fields hop hnn).trans (of_all_used w).symm

theorem encodeWith_of_decodeMisc {m : OpMap} {w : Word} {i : Instr} (hop : opOf w = 0xF)
    (h : decodeMisc m (Reg.ofNibble (xOf w)) (nnOf w) = some i) : encodeWith m i = w &&& usedBits i := by
  unfold decodeMisc at h
  split_ifs at h with hnn hnn hnn hnn hnn hnn hnn hnn hnn <;> cases h <;>
    exact (wordXNN_of_fields hop hnn).trans (of_all_used w).symm

theorem eq_of_decodeXY {strict : Bool} {n : Nibble} {i j : Instr} (h : decodeXY strict n j = some i) : j = i := by
  unfold decodeXY at h
  split_ifs at h
  exact Option.some.inj h

/-- The word of a compare skip is the decoded word but for its low nibble. -/
theorem wordXYN_zero_of_fields {w : Word} {op : Nibble} (hop : opOf w = op) :
    wordXYN op (Reg.ofNibble (xOf w)) (Reg.ofNibble (yOf w)) 0x0 = w &&& 0xFFF0#16 := by
  rw [← wordXYN_and_FFF0 op _ _ (nOf w), wordXYN_of_fields hop rfl]

/-- The instruction of a word that decodes has that word, but for the bits it ignores, whatever the OPMAP. -/
theorem encodeWith_of_decodeWith {m : OpMap} {strict : Bool} {w : Word} {i : Instr}
    (h : decodeWith strict w m = some i) : encodeWith m i = w &&& usedBits i := by
  have nnn {op : Nibble} (hop : opOf w = op) : wordNNN op (nnnOf w) = w &&& 0xFFFF#16 :=
    (wordNNN_of_fields hop).trans (of_all_used w).symm
  have xnn {op : Nibble} (hop : opOf w = op) : wordXNN op (Reg.ofNibble (xOf w)) (nnOf w) = w &&& 0xFFFF#16 :=
    (wordXNN_of_fields hop rfl).trans (of_all_used w).symm
  have xyn {op : Nibble} (hop : opOf w = op) :
      wordXYN op (Reg.ofNibble (xOf w)) (Reg.ofNibble (yOf w)) (nOf w) = w &&& 0xFFFF#16 :=
    (wordXYN_of_fields hop rfl).trans (of_all_used w).symm
  unfold decodeWith at h
  rcases ite_eq_iff.mp h with ⟨hop, h⟩ | ⟨-, h⟩
  · cases h; exact encodeWith_decodeZero m hop
  rcases ite_eq_iff.mp h with ⟨hop, h⟩ | ⟨-, h⟩
  · cases h; exact nnn hop
  rcases ite_eq_iff.mp h with ⟨hop, h⟩ | ⟨-, h⟩
  · cases h; exact nnn hop
  rcases ite_eq_iff.mp h with ⟨hop, h⟩ | ⟨-, h⟩
  · cases h; exact xnn hop
  rcases ite_eq_iff.mp h with ⟨hop, h⟩ | ⟨-, h⟩
  · cases h; exact xnn hop
  rcases ite_eq_iff.mp h with ⟨hop, h⟩ | ⟨-, h⟩
  · cases eq_of_decodeXY h; exact wordXYN_zero_of_fields hop
  rcases ite_eq_iff.mp h with ⟨hop, h⟩ | ⟨-, h⟩
  · cases h; exact xnn hop
  rcases ite_eq_iff.mp h with ⟨hop, h⟩ | ⟨-, h⟩
  · cases h; exact xnn hop
  rcases ite_eq_iff.mp h with ⟨hop, h⟩ | ⟨-, h⟩
  · exact encodeWith_of_decodeAlu hop h
  rcases ite_eq_iff.mp h with ⟨hop, h⟩ | ⟨-, h⟩
  · cases eq_of_decodeXY h; exact wordXYN_zero_of_fields hop
  rcases ite_eq_iff.mp h with ⟨hop, h⟩ | ⟨-, h⟩
  · cases h; exact nnn hop
  rcases ite_eq_iff.mp h with ⟨hop, h⟩ | ⟨-, h⟩
  · cases h; exact nnn hop
  rcases ite_eq_iff.mp h with ⟨hop, h⟩ | ⟨-, h⟩
  · cases h; exact xnn hop
  rcases ite_eq_iff.mp h with ⟨hop, h⟩ | ⟨-, h⟩
  · cases h; exact xyn hop
  rcases ite_eq_iff.mp h with ⟨hop, h⟩ | ⟨-, h⟩
  · exact encodeWith_of_decodeKeys hop h
  rcases ite_eq_iff.mp h with ⟨hop, h⟩ | ⟨-, h⟩
  · exact encodeWith_of_decodeMisc hop h
  cases h

/-- No word decodes to an ill-formed instruction: a SYS has neither of the two words that its format shares (R102). -/
theorem wf_of_decode {w : Word} {i : Instr} (h : decode w = .ok i) : i.wf = true := by
  have hd := decode_eq_ok.mp h
  cases i
  case sys nnn =>
    obtain rfl : wordNNN 0x0 nnn = w := (encodeWith_of_decodeWith hd).trans (of_all_used w)
    rw [Instr.wf, Bool.and_eq_true, bne_iff_ne, bne_iff_ne]
    constructor
    · rintro rfl
      exact absurd hd (by decide)
    · rintro rfl
      exact absurd hd (by decide)
  all_goals rfl

/-- Settles O9. -/
theorem encodeOfDecodeIsTheWord : Obligations.EncodeOfDecodeIsTheWord :=
  fun _ _ h => ⟨wf_of_decode h, encodeWith_of_decodeWith (decode_eq_ok.mp h)⟩

/-! ### Illegal words -/

theorem ite_some_eq_none_iff {α : Type} {c : Prop} [Decidable c] {a : α} {o : Option α} :
    (if c then some a else o) = none ↔ ¬ c ∧ o = none := by
  by_cases h : c <;> simp [h]

theorem decodeAlu_eq_none_iff (x y : Reg) (n : Nibble) :
    decodeAlu opmap x y n = none ↔ n ∈ ([0x8, 0x9, 0xA, 0xB, 0xC, 0xD, 0xF] : List Nibble) := by
  have selectors : ∀ n : Nibble, n ∉ ([0x0, 0x1, 0x2, 0x3, 0x4, 0x5, 0x6, 0x7, 0xE] : List Nibble) ↔
      n ∈ ([0x8, 0x9, 0xA, 0xB, 0xC, 0xD, 0xF] : List Nibble) := by decide
  rw [← selectors]
  simp only [decodeAlu, ite_some_eq_none_iff]
  simp [opmap]

theorem decodeKeys_eq_none_iff (x : Reg) (nn : Byte) :
    decodeKeys opmap x nn = none ↔ nn ∉ ([0x9E, 0xA1] : List Byte) := by
  simp only [decodeKeys, ite_some_eq_none_iff]
  simp [opmap]

theorem decodeMisc_eq_none_iff (x : Reg) (nn : Byte) :
    decodeMisc opmap x nn = none ↔ nn ∉ ([0x07, 0x0A, 0x15, 0x18, 0x1E, 0x29, 0x33, 0x55, 0x65] : List Byte) := by
  simp only [decodeMisc, ite_some_eq_none_iff]
  simp [opmap, and_left_comm]

theorem decodeXY_eq_none_iff (strict : Bool) (n : Nibble) (i : Instr) :
    decodeXY strict n i = none ↔ strict = true ∧ n ≠ 0x0 := by
  simp [decodeXY]

open Machine (IllegalWord)

/-- By the top nibble: of the sixteen, three have illegal words, and two more under `STRICT_XY0`. -/
theorem decodeWith_eq_none_iff (strict : Bool) (w : Word) : decodeWith strict w = none ↔ IllegalWord strict w := by
  have hop : opOf w = 0x5 ∨ opOf w = 0x8 ∨ opOf w = 0x9 ∨ opOf w = 0xE ∨ opOf w = 0xF ∨
      opOf w ∈ ([0x0, 0x1, 0x2, 0x3, 0x4, 0x6, 0x7, 0xA, 0xB, 0xC, 0xD] : List Nibble) := by
    generalize opOf w = op; revert op; decide
  rcases hop with h | h | h | h | h | h
  · have hd : decodeWith strict w = decodeXY strict (nOf w) (.seReg (.ofNibble (xOf w)) (.ofNibble (yOf w))) := by
      simp [decodeWith, opmap, h]
    rw [hd, decodeXY_eq_none_iff]
    simp [IllegalWord, h]
  · have hd : decodeWith strict w = decodeAlu opmap (.ofNibble (xOf w)) (.ofNibble (yOf w)) (nOf w) := by
      simp [decodeWith, opmap, h]
    rw [hd, decodeAlu_eq_none_iff]
    simp [IllegalWord, h]
  · have hd : decodeWith strict w = decodeXY strict (nOf w) (.sneReg (.ofNibble (xOf w)) (.ofNibble (yOf w))) := by
      simp [decodeWith, opmap, h]
    rw [hd, decodeXY_eq_none_iff]
    simp [IllegalWord, h]
  · have hd : decodeWith strict w = decodeKeys opmap (.ofNibble (xOf w)) (nnOf w) := by
      simp [decodeWith, opmap, h]
    rw [hd, decodeKeys_eq_none_iff]
    simp [IllegalWord, h]
  · have hd : decodeWith strict w = decodeMisc opmap (.ofNibble (xOf w)) (nnOf w) := by
      simp [decodeWith, opmap, h]
    rw [hd, decodeMisc_eq_none_iff]
    simp [IllegalWord, h]
  · simp only [List.mem_cons, List.not_mem_nil, or_false] at h
    rcases h with h | h | h | h | h | h | h | h | h | h | h <;> simp [decodeWith, opmap, IllegalWord, h]

/-- Settles O10: `decode` reads `5xyN` and `9xyN` with any low nibble, and an error of it carries the word (R82). -/
theorem illegalWordsAreExactlyThoseListed : Obligations.IllegalWordsAreExactlyThoseListed := by
  refine ⟨fun w => ?_, decodeWith_eq_none_iff⟩
  rw [decode_eq_error, decodeWith_eq_none_iff, and_iff_left rfl]

/-- Settles O11, word by word, by evaluation of the decoder. -/
theorem wordsOfTheSpecDecode : Obligations.WordsOfTheSpecDecode := by
  unfold Obligations.WordsOfTheSpecDecode
  simp only [decode_eq_ok, decode_eq_error]
  decide

end Sys2Proof
end

section
/-!
PROOFS. The invariant (spec/10_state.md R24, R25, spec/20_memory.md R50, spec/60_exceptions.md R223): what an instruction can do
to `PC`, the call stack and memory, what each event makes of the invariant, and O5, O6, O55 and O7, assembled from these.
-/

namespace Sys2Proof.Machine

/-! ### What an instruction can do to `PC`, the call stack and memory -/

/-- `t` differs from `s` in the data registers, the timers, the picture, the latch and the records at most: memory, `PC`, the call
stack, the keys and the clock are as before. -/
def State.OnlyDataWritten (s t : State) : Prop :=
  t = { s with v := t.v, i := t.i, dt := t.dt, st := t.st, fb := t.fb, latch := t.latch, rng := t.rng, fault := t.fault,
               free := t.free }

/-- Where a jump or a skip can go (spec/40_control.md R103 to R109). -/
def State.JumpTarget (s : State) (w : Word) : Prop :=
  w = s.pc ∨ w = s.pc + 2 ∨ (∃ nnn, w = addrOf nnn) ∨ ∃ nnn, w = addrOf nnn + wordOf (s.reg 0)

theorem State.skipIf_eq_jumpTo (s : State) (c : Bool) : ∃ w, s.JumpTarget w ∧ s.skipIf c = s.jumpTo w := by
  cases c
  · exact ⟨s.pc, .inl rfl, rfl⟩
  · exact ⟨s.pc + 2, .inr (.inl rfl), rfl⟩

/-- All that an instruction can do, whether or not it faults: write data, store into memory, jump, push or pop. -/
theorem exec_cases {i : Instr} {s t : State} (h : exec i s = .next t) :
    s.OnlyDataWritten t ∨
    (∃ base bs, storeBytes base bs s = .next t) ∨
    (∃ w, s.JumpTarget w ∧ t = s.jumpTo w) ∨
    (∃ (hlt : s.sp.val < 16) (nnn : Addr12), t = { s with
      stack := s.stack.set s.sp.val s.pc hlt, sp := ⟨s.sp.val + 1, by omega⟩, pc := addrOf nnn }) ∨
    (∃ hpos : 0 < s.sp.val, t = { s with
      sp := ⟨s.sp.val - 1, by omega⟩, pc := s.stack[s.sp.val - 1]'(by omega) }) := by
  cases i
  case ret =>
    rcases returnFromCall_cases h with h | ⟨-, rfl⟩
    · exact .inr (.inr (.inr (.inr h)))
    · exact .inl rfl
  case call nnn =>
    rcases callTo_cases h with ⟨hlt, h⟩ | ⟨-, rfl⟩
    · exact .inr (.inr (.inr (.inl ⟨hlt, nnn, h⟩)))
    · exact .inl rfl
  case sys nnn =>
    rcases callTo_cases h with ⟨hlt, h⟩ | ⟨-, rfl⟩
    · exact .inr (.inr (.inr (.inl ⟨hlt, nnn, h⟩)))
    · exact .inl rfl
  case jp nnn => cases h; exact .inr (.inr (.inl ⟨_, .inr (.inr (.inl ⟨nnn, rfl⟩)), rfl⟩))
  case jpV0 nnn => cases h; exact .inr (.inr (.inl ⟨_, .inr (.inr (.inr ⟨nnn, rfl⟩)), rfl⟩))
  case seImm => cases h; exact .inr (.inr (.inl (s.skipIf_eq_jumpTo _)))
  case sneImm => cases h; exact .inr (.inr (.inl (s.skipIf_eq_jumpTo _)))
  case seReg => cases h; exact .inr (.inr (.inl (s.skipIf_eq_jumpTo _)))
  case sneReg => cases h; exact .inr (.inr (.inl (s.skipIf_eq_jumpTo _)))
  case skp =>
    simp only [exec, execSkp] at h
    split at h <;> cases h
    · exact .inr (.inr (.inl (s.skipIf_eq_jumpTo _)))
    · exact .inl rfl
  case sknp =>
    simp only [exec, execSknp] at h
    split at h <;> cases h
    · exact .inr (.inr (.inl (s.skipIf_eq_jumpTo _)))
    · exact .inl rfl
  case ldB => exact .inr (.inl ⟨_, _, h⟩)
  case stRegs => exact .inr (.inl ⟨_, _, h⟩)
  case drw => rcases drawSprite_cases h with ⟨-, rfl⟩ | ⟨-, rfl⟩ <;> exact .inl rfl
  case ldRegs => rcases loadRegsFrom_cases h with ⟨-, rfl⟩ | ⟨-, rfl⟩ <;> exact .inl rfl
  all_goals (cases h; exact .inl rfl)

/-! ### The invariant, instruction by instruction -/

/-- What holds after the fetch of a step that started with the invariant: of the two bytes at `PC` the second is at most 0xFFF. -/
structure State.InvAfterFetch (s : State) : Prop where
  mem_wf : s.mem.wf = true
  fault_eq : s.fault = none
  latch_eq : s.latch = none
  pc_le : s.pc.toNat ≤ 0x1000
  stack_le : ∀ k : Fin 16, s.stack[k.val].toNat ≤ 0x1000

/-- No jump or skip goes beyond 0xFFF + 0xFF (R24). -/
theorem State.JumpTarget.toNat_le {s : State} {w : Word} (hw : s.JumpTarget w) (hpc : s.pc.toNat ≤ 0x1000) :
    w.toNat ≤ 0x10FE := by
  rcases hw with rfl | rfl | ⟨nnn, rfl⟩ | ⟨nnn, rfl⟩
  · omega
  · bv_omega
  · rw [toNat_addrOf]; omega
  · rw [toNat_add_wordOf, toNat_addrOf]; omega

/-- Only LD Vx,K sets the latch, and it raises no fault. -/
theorem exec_one_state {i : Instr} {s t : State} (hf : s.fault = none) (hl : s.latch = none) (h : exec i s = .next t) :
    t.fault = none ∨ t.latch = none := by
  by_cases hi : ∃ x, i = .ldVxK x
  · obtain ⟨x, rfl⟩ := hi
    cases h
    exact .inl hf
  · rw [not_exists] at hi
    exact .inr ((exec_latch_of_ne_ldVxK hi h).trans hl)

theorem storeBytes_frame {base : Nat} {bs : List Byte} {s t : State} (h : storeBytes base bs s = .next t) :
    t = { s with mem := t.mem, fault := t.fault, free := t.free } := by
  rcases storeBytes_cases h with ⟨-, rfl⟩ | ⟨-, rfl⟩ <;> rfl

/-- Every instruction keeps the invariant. -/
theorem exec_inv {i : Instr} {s t : State} (hs : s.InvAfterFetch) (h : exec i s = .next t) : t.Inv := by
  obtain ⟨hmem, hf, hl, hpc, hstack⟩ := hs
  have hone := exec_one_state hf hl h
  rcases exec_cases h with h | ⟨base, bs, h⟩ | ⟨w, hw, rfl⟩ | ⟨hlt, nnn, rfl⟩ | ⟨hpos, rfl⟩
  · rw [h] at hone ⊢
    exact ⟨hmem, hone, by show s.pc.toNat ≤ _; omega, hstack⟩
  · have hwf := storeBytes_wf hmem h
    rw [storeBytes_frame h] at hone ⊢
    exact ⟨hwf, hone, by show s.pc.toNat ≤ _; omega, hstack⟩
  · exact ⟨hmem, hone, hw.toNat_le hpc, hstack⟩
  · refine ⟨hmem, hone, by rw [toNat_addrOf]; omega, fun k => ?_⟩
    rw [Vector.getElem_set]
    split
    · exact hpc
    · exact hstack k
  · refine ⟨hmem, hone, ?_, hstack⟩
    have := hstack ⟨s.sp.val - 1, by omega⟩
    exact this.trans (by decide)

/-! ### The invariant, event by event -/

/-- Every step keeps the invariant, whatever the parameters. -/
theorem stepWith_inv {p : Params} {s t : State} (hs : s.Inv) (h : stepWith p s = .next t) : t.Inv := by
  obtain ⟨hmem, hone, hpc, hstack⟩ := hs
  rcases stepWith_cases h with ⟨rfl, -⟩ | ⟨⟨hf, hl⟩, ⟨-, rfl⟩ | ⟨hin, w, -, ⟨i, -, h⟩ | ⟨-, rfl⟩⟩⟩
  · exact ⟨hmem, hone, hpc, hstack⟩
  · exact ⟨hmem, .inr hl, hpc, hstack⟩
  · have hpc' : s.advancePc.pc.toNat ≤ 0x1000 := by rw [State.advancePc_pc]; bv_omega
    exact exec_inv (s := s.advancePc) ⟨hmem, hf, hl, hpc', hstack⟩ h
  · have hpc' : (s.pc + 2).toNat ≤ 0x10FE := by bv_omega
    exact ⟨hmem, .inr hl, hpc', hstack⟩

theorem tick_inv {s : State} (hs : s.Inv) : (tick s).Inv := by
  obtain ⟨hmem, hone, hpc, hstack⟩ := hs
  rw [tick_frame]
  exact ⟨hmem, hone, hpc, hstack⟩

theorem keyEvent_inv {s : State} (k : Key) (pressed : Bool) (hs : s.Inv) : (keyEvent k pressed s).Inv := by
  obtain ⟨hmem, hone, hpc, hstack⟩ := hs
  rcases keyEvent_cases k pressed s with ⟨-, h⟩ | ⟨-, -, h⟩ | ⟨-, -, _, -, h⟩ <;> rw [h]
  · exact ⟨hmem, hone, hpc, hstack⟩
  · exact ⟨hmem, hone, hpc, hstack⟩
  · exact ⟨hmem, .inr rfl, hpc, hstack⟩

/-- No event is refused, and each keeps the invariant. -/
theorem event_inv (p : Params) (e : Event) {s : State} (hs : s.Inv) : ∃ t, event e s p = .next t ∧ t.Inv := by
  cases e with
  | step =>
    obtain ⟨t, ht⟩ := stepWith_answers_next p s
    exact ⟨t, ht, stepWith_inv hs ht⟩
  | tick => exact ⟨tick s, rfl, tick_inv hs⟩
  | key k pressed => exact ⟨keyEvent k pressed s, rfl, keyEvent_inv k pressed hs⟩

/-- So does a sequence of events. -/
theorem runEvents_inv (p : Params) (es : List Event) {s : State} (hs : s.Inv) :
    ∃ t, runEvents es s p = .next t ∧ t.Inv := by
  induction es generalizing s with
  | nil => exact ⟨s, rfl, hs⟩
  | cons e es ih =>
    obtain ⟨u, hu, hinv⟩ := event_inv p e hs
    obtain ⟨t, ht, htinv⟩ := ih hinv
    exact ⟨t, by rw [runEvents, hu]; exact ht, htinv⟩

/-! ### Reset -/

/-- An image that fits is loaded (R251). -/
theorem load_of_fits {rom : List Byte} (p : Params) (h : rom.length ≤ 3584) :
    load rom p = .next (State.resetWith rom p) :=
  if_pos h

theorem State.reset_pc_le : State.reset.pc.toNat ≤ 0x10FE := by decide

theorem State.reset_stack_le (k : Fin 16) : State.reset.stack[k.val].toNat ≤ 0x1000 := by
  simp [State.reset]

theorem State.resetWith_inv {rom : List Byte} (p : Params) (h : rom.length ≤ 3584) : (State.resetWith rom p).Inv :=
  ⟨State.resetWith_mem_wf p h, .inl rfl, State.reset_pc_le, State.reset_stack_le⟩

/-- Settles O5. -/
theorem resetMeetsTheInvariant : Obligations.ResetMeetsTheInvariant :=
  ⟨State.reset_mem_wf, .inl rfl, State.reset_pc_le, State.reset_stack_le⟩

/-- Settles O6: a step under the default parameters. -/
theorem everyStepKeepsTheInvariant : Obligations.EveryStepKeepsTheInvariant :=
  fun _ _ hs h => stepWith_inv hs h

/-- Settles O55, by the kind of event, and by what the loader writes. -/
theorem everyEventKeepsTheInvariant : Obligations.EveryEventKeepsTheInvariant :=
  ⟨fun p e _ hs => event_inv p e hs, fun p _ hlen => ⟨_, load_of_fits p hlen, State.resetWith_inv p hlen⟩⟩

/-- Settles O7, by induction on the events, from the loaded state. -/
theorem everyEventSequenceRunsAndKeepsTheInvariant : Obligations.EveryEventSequenceRunsAndKeepsTheInvariant := by
  intro rom es hlen
  obtain ⟨t, ht, hinv⟩ := runEvents_inv Params.default es (State.resetWith_inv Params.default hlen)
  exact ⟨_, t, load_of_fits Params.default hlen, ht, hinv⟩

end Sys2Proof.Machine
end

section
/-!
PROOFS. Reset (spec/10_state.md R40, spec/70_reset_and_hazards.md R250, R251): what stands at each address of a loaded memory,
and O4 and O56, assembled from these.
-/

namespace Sys2Proof.Machine

/-! ### The memory of a loaded image -/

theorem State.memRead_resetWith_font (rom : List Byte) (p : Params) {a : Nat} (ha : a < 80) :
    (State.resetWith rom p).memRead a = some (p.font.toList.getD a 0) := by
  rw [State.memRead_of_lt (by omega), State.resetWith_read, if_neg (by omega)]

theorem State.memRead_resetWith_image {rom : List Byte} (p : Params) {k : Nat} (hlen : rom.length ≤ 3584)
    (hk : k < rom.length) : (State.resetWith rom p).memRead (0x200 + k) = some (rom.getD k 0) := by
  rw [State.memRead_of_lt (by omega), State.resetWith_read, if_pos (by omega), Nat.add_sub_cancel_left]

/-- Neither font nor image: zero (D16). -/
theorem State.memRead_resetWith_zero {rom : List Byte} (p : Params) {a : Nat} (hfont : 80 ≤ a)
    (himage : a < 0x200 ∨ 0x200 + rom.length ≤ a) (ha : a < 0x1000) : (State.resetWith rom p).memRead a = some 0 := by
  have hlen : p.font.toList.length = 80 := Vector.length_toList
  rw [State.memRead_of_lt ha, State.resetWith_read, if_neg (by omega), List.getD_eq_default _ _ (by omega)]

theorem load_of_too_long {rom : List Byte} (p : Params) (h : 3584 < rom.length) :
    load rom p = .refused (.imageTooLong rom.length) :=
  if_neg (Nat.not_le.mpr h)

/-- Settles O56, by the loaded memory range by range. -/
theorem resetTakesAnyFont : Obligations.ResetTakesAnyFont := by
  refine ⟨fun p rom hlen => ⟨_, load_of_fits p hlen, fun k => ?_, fun a h80 h200 => ?_, fun k hk => ?_, fun a hend ha => ?_, rfl⟩,
    by decide⟩
  · rw [State.memRead_resetWith_font rom p k.isLt, List.getD_eq_getElem _ _ (by simp), Vector.getElem_toList]
  · exact State.memRead_resetWith_zero p h80 (.inl h200) (by omega)
  · exact State.memRead_resetWith_image p hlen hk
  · exact State.memRead_resetWith_zero p (by omega) (.inr hend) ha

/-! ### The other fields -/

theorem State.reg_reset (r : Reg) : State.reset.reg r = 0 := Vector.getElem_replicate ..

theorem State.keyDown_reset (k : Key) : State.reset.keyDown k = false := Vector.getElem_replicate ..

theorem State.stack_reset (k : Fin 16) : State.reset.stack[k.val] = 0 := Vector.getElem_replicate ..

/-- The clock at reset as real numbers: `CLOCK_PERIOD` twice and a sixtieth (D12). -/
theorem State.realClock_reset (ρ : RealValues) : State.reset.realClock ρ = ⟨ρ.clockPeriod, ρ.clockPeriod, 1 / 60⟩ := by
  simp [State.realClock, State.clock, Clock.map, State.reset, timerPeriod_eq]

/-- Settles O4, by the loaded memory range by range, and by the reset state for every other field. -/
theorem resetLoadsImageAndZeroesTheRest : Obligations.ResetLoadsImageAndZeroesTheRest := by
  intro rom
  refine ⟨load_of_too_long Params.default, fun hlen => ⟨_, load_of_fits Params.default hlen, fun a ha => ?_, fun a h80 h200 => ?_,
    fun k hk => ?_, fun a hend ha => ?_, fun a ha => ?_, State.reg_reset, rfl, rfl, rfl, State.stack_reset, rfl, rfl,
    Frame.getPixel_cleared, State.keyDown_reset, rfl, rfl, rfl, fun ρ => ?_⟩⟩
  · rw [State.memRead_resetWith_font rom _ ha, Params.default_font]
  · exact State.memRead_resetWith_zero _ h80 (.inl h200) (by omega)
  · exact State.memRead_resetWith_image _ hlen hk
  · exact State.memRead_resetWith_zero _ (by omega) (.inr hend) ha
  · exact State.memRead_of_ge ha
  · obtain ⟨hperiod, hcpu, htimer⟩ := Clock.mk.inj (State.realClock_reset ρ)
    exact ⟨hperiod, hperiod ▸ ρ.clockPeriod_pos, hcpu.trans hperiod.symm, htimer⟩

end Sys2Proof.Machine
end

section
/-!
PROOFS. Steps and events (spec/60_exceptions.md R216 to R223): a halted core, a step under any parameters, what a step can do to
keys, timers and clock, what a key event does, and O2, O3, O57, O49, O47 and O50, assembled from these.
-/

namespace Sys2Proof.Machine

/-! ### A halted core -/

/-- A halted core takes no key event (D13). -/
theorem keyEvent_of_fault {k : Key} {pressed : Bool} {s : State} {f : Fault} (hf : s.fault = some f) :
    keyEvent k pressed s = s := by
  rw [keyEvent, hf]

/-- Settles O2, event by event. -/
theorem haltedCoreIgnoresEvents : Obligations.HaltedCoreIgnoresEvents := by
  intro s f e hf
  cases e with
  | step => exact stepWith_of_fault hf
  | tick => exact congrArg _ (tick_of_fault hf)
  | key k pressed => exact congrArg _ (keyEvent_of_fault hf)

/-! ### A step of a running core -/

/-- A table word that the decoder reads is a word that decodes. -/
theorem decode_of_decodeTableWord {nbits w : Nat} {i : Instr} (h : decodeTableWord nbits w = some i) :
    decode (tableWord nbits w) = .ok i := by
  simp only [decodeTableWord, decodeBytes, wordOfBytes_bytesOfWord] at h
  cases hd : decode (tableWord nbits w) with
  | ok j =>
    rw [hd] at h
    cases h
    rfl
  | error e =>
    rw [hd] at h
    cases h

/-- Settles O3, by the fetch of the placed word. -/
theorem placedWordRunsNext : Obligations.PlacedWordRunsNext :=
  fun s _ _ _ h => step_placeForFetch s _ (decode_of_decodeTableWord h)

/-- Settles O57, by the fetch of the two bytes; `step` is by definition the step under the default parameters. -/
theorem stepTakesAnyOpmap : Obligations.StepTakesAnyOpmap := by
  refine ⟨fun p s hf hl _ w hhi hlo => ?_, step_eq⟩
  have hfetch : s.fetch = .ok w := by rw [State.fetch_of_memRead hhi hlo, wordOfBytes_bytesOfWord]
  rw [stepWith_of_fetch hf hl hfetch]
  constructor
  · intro i hi
    rw [hi]
    rfl
  · intro hnone
    rw [hnone]
    rfl

/-! ### What a step leaves alone -/

/-- No instruction changes a key. -/
theorem exec_keys {i : Instr} {s t : State} (h : exec i s = .next t) : t.keys = s.keys := by
  rcases exec_cases h with h | ⟨_, _, h⟩ | ⟨_, -, rfl⟩ | ⟨_, _, rfl⟩ | ⟨_, rfl⟩
  · rw [h]
  · rw [storeBytes_frame h]
  · rfl
  · rfl
  · rfl

/-- Only LD DT,Vx sets the delay timer, and only LD ST,Vx the sound timer. -/
theorem exec_timers {i : Instr} {s t : State} (h : exec i s = .next t) :
    (t.dt = s.dt ∨ ∃ x, i = .ldDtVx x ∧ t.dt = s.reg x) ∧ (t.st = s.st ∨ ∃ x, i = .ldStVx x ∧ t.st = s.reg x) := by
  cases i
  case ldDtVx x => cases h; exact ⟨.inr ⟨x, rfl, rfl⟩, .inl rfl⟩
  case ldStVx x => cases h; exact ⟨.inl rfl, .inr ⟨x, rfl, rfl⟩⟩
  case drw => rcases drawSprite_cases h with ⟨-, rfl⟩ | ⟨-, rfl⟩ <;> simp
  case ret => rcases returnFromCall_cases h with ⟨_, rfl⟩ | ⟨-, rfl⟩ <;> simp
  case call => rcases callTo_cases h with ⟨_, rfl⟩ | ⟨-, rfl⟩ <;> simp
  case sys => rcases callTo_cases h with ⟨_, rfl⟩ | ⟨-, rfl⟩ <;> simp
  case ldB => rw [storeBytes_frame h]; simp
  case stRegs => rw [storeBytes_frame h]; simp
  case ldRegs => rcases loadRegsFrom_cases h with ⟨-, rfl⟩ | ⟨-, rfl⟩ <;> simp
  case skp => simp only [exec, execSkp] at h; split at h <;> cases h <;> simp
  case sknp => simp only [exec, execSknp] at h; split at h <;> cases h <;> simp
  all_goals (cases h; simp)

/-- No step changes a key. -/
theorem step_keys {s t : State} (h : step s = .next t) : t.keys = s.keys := by
  rcases step_cases h with ⟨rfl, -⟩ | ⟨-, ⟨-, rfl⟩ | ⟨-, _, -, ⟨_, -, h⟩ | ⟨-, rfl⟩⟩⟩
  · rfl
  · rfl
  · exact exec_keys (s := s.advancePc) h
  · rfl

/-- A step that changes a timer has fetched the instruction that sets it. -/
theorem step_timers {s t : State} (h : step s = .next t) :
    (t.dt = s.dt ∨ ∃ w x, s.fetch = .ok w ∧ decode w = .ok (.ldDtVx x) ∧ t.dt = s.reg x) ∧
    (t.st = s.st ∨ ∃ w x, s.fetch = .ok w ∧ decode w = .ok (.ldStVx x) ∧ t.st = s.reg x) := by
  rcases step_cases h with ⟨rfl, -⟩ | ⟨-, ⟨-, rfl⟩ | ⟨hp, w, rfl, ⟨i, hi, h⟩ | ⟨-, rfl⟩⟩⟩
  · exact ⟨.inl rfl, .inl rfl⟩
  · exact ⟨.inl rfl, .inl rfl⟩
  · obtain ⟨hdt, hst⟩ := exec_timers h
    have hfetch := State.fetch_of_inRange hp
    constructor
    · rcases hdt with hdt | ⟨x, rfl, hdt⟩
      · exact .inl hdt
      · exact .inr ⟨_, x, hfetch, hi, hdt⟩
    · rcases hst with hst | ⟨x, rfl, hst⟩
      · exact .inl hst
      · exact .inr ⟨_, x, hfetch, hi, hst⟩
  · exact ⟨.inl rfl, .inl rfl⟩

/-- Settles O49. -/
theorem stepLeavesKeysTimersAndScheduler : Obligations.StepLeavesKeysTimersAndScheduler := by
  intro s t h
  obtain ⟨hdt, hst⟩ := step_timers h
  obtain ⟨hperiod, hcpu, htimer⟩ := Clock.mk.inj (stepWith_clock h)
  exact ⟨step_keys h, hperiod, hcpu, htimer, hdt.resolve_left, hst.resolve_left⟩

/-! ### Key events -/

/-- A key's flag reads back as it was set, and no other key changes. -/
theorem State.keyDown_setKey (s : State) (k j : Key) (pressed : Bool) :
    (s.setKey k pressed).keyDown j = if j = k then pressed else s.keyDown j := by
  simp only [State.keyDown, State.setKey, Vector.getElem_set, Fin.ext_iff, eq_comm]

/-- A key event of a core that is not halted sets its own key's flag. -/
theorem keyEvent_keyDown {k : Key} {pressed : Bool} {s : State} (hf : s.fault = none) (j : Key) :
    (keyEvent k pressed s).keyDown j = if j = k then pressed else s.keyDown j := by
  rcases keyEvent_cases k pressed s with ⟨h, -⟩ | ⟨-, -, h⟩ | ⟨-, rfl, _, -, h⟩
  · exact absurd hf h
  · rw [h, State.keyDown_setKey]
  · rw [h, ← State.keyDown_setKey]
    rfl

/-- A key event changes keys, registers and the latch only (R222). -/
theorem keyEvent_frame (k : Key) (pressed : Bool) (s : State) :
    keyEvent k pressed s =
      { s with keys := (keyEvent k pressed s).keys, v := (keyEvent k pressed s).v, latch := (keyEvent k pressed s).latch } := by
  rcases keyEvent_cases k pressed s with ⟨-, h⟩ | ⟨-, -, h⟩ | ⟨-, -, _, -, h⟩ <;> rw [h] <;> rfl

/-- A press that resolves the latch of `r` leaves the other registers. -/
theorem keyEvent_press_reg {k : Key} {s : State} {r r' : Reg} (hf : s.fault = none) (hl : s.latch = some r)
    (hr : r' ≠ r) : (keyEvent k true s).reg r' = s.reg r' := by
  rw [keyEvent_press_of_latch hf hl]
  exact (State.reg_setReg (s.setKey k true) r r' _).trans (if_neg hr)

/-- A release, or a press while no register awaits a key, leaves latch and registers. -/
theorem keyEvent_latch_v_of_no_resolve {k : Key} {pressed : Bool} {s : State} (h : pressed = false ∨ s.latch = none) :
    (keyEvent k pressed s).latch = s.latch ∧ (keyEvent k pressed s).v = s.v := by
  rcases keyEvent_cases k pressed s with ⟨-, he⟩ | ⟨-, -, he⟩ | ⟨-, hp, r, hr, -⟩
  · rw [he]; exact ⟨rfl, rfl⟩
  · rw [he]; exact ⟨rfl, rfl⟩
  · simp [hp, hr] at h

/-- Settles O47, clause by clause. -/
theorem keyEventSetsTheKeyAndResolvesTheLatch : Obligations.KeyEventSetsTheKeyAndResolvesTheLatch := by
  intro s k pressed
  constructor
  · intro hf
    obtain ⟨f, hf⟩ := Option.ne_none_iff_exists'.mp hf
    exact keyEvent_of_fault hf
  · intro hf
    refine ⟨?_, fun j hj => ?_, ?_, keyEvent_latch_v_of_no_resolve, keyEvent_frame k pressed s⟩
    · rw [keyEvent_keyDown hf, if_pos rfl]
    · rw [keyEvent_keyDown hf, if_neg hj]
    · rintro r rfl hl
      obtain ⟨hlatch, hreg⟩ := keyEvent_press_resolves (k := k) hf hl
      exact ⟨hreg, hlatch, fun r' => keyEvent_press_reg hf hl⟩

/-- Settles O50, by what a tick and a key event can change. -/
theorem ticksAndKeyEventsAreNoInterrupts : Obligations.TicksAndKeyEventsAreNoInterrupts := by
  intro e s t he h
  cases e with
  | step => exact absurd rfl he
  | tick =>
    cases h
    rw [tick_frame]
    simp
  | key k pressed =>
    cases h
    rw [keyEvent_frame]
    simp

end Sys2Proof.Machine
end

section
/-!
PROOFS. Control transfer (spec/40_control.md, spec/44_keys_timers.md R190, R191): CALL and SYS push and jump, RET pops, the
register and key skips, the indexed jump, a finished program, and O14, O16, O17, O18, O21, O22, O23 and O43, assembled from
these.
-/

namespace Sys2Proof.Machine

/-! ### The call stack -/

theorem exec_call (nnn : Addr12) (s : State) : exec (.call nnn) s = callTo (addrOf nnn) s := rfl

theorem exec_sys (nnn : Addr12) (s : State) : exec (.sys nnn) s = callTo (addrOf nnn) s := rfl

theorem exec_ret (s : State) : exec .ret s = returnFromCall s := rfl

/-- A return with `k + 1` entries in use pops slot `k`. -/
theorem returnFromCall_of_succ {s : State} {k : Fin 16} (h : s.sp.val = k.val + 1) :
    returnFromCall s = .next { s with sp := ⟨k.val, by omega⟩, pc := s.stack[k.val] } := by
  have hk : s.sp.val - 1 = k.val := by omega
  rw [returnFromCall_of_pos s (by omega)]
  simp only [hk]

/-- Settles O16. -/
theorem returnPopsTheCallStack : Obligations.ReturnPopsTheCallStack :=
  fun s _ h => ⟨_, (exec_ret s).trans (returnFromCall_of_succ h), rfl, rfl, rfl⟩

/-- Settles O17: both are a call to the zero-extended address. -/
theorem callAndSysPushAndJump : Obligations.CallAndSysPushAndJump := by
  intro s nnn k hk
  have hlt : s.sp.val < 16 := by omega
  rw [exec_call, exec_sys]
  refine ⟨_, callTo_of_lt _ s hlt, callTo_of_lt _ s hlt, ?_, fun j hj => ?_, ?_, toNat_addrOf nnn, rfl⟩
  · simp [hk]
  · have hne : s.sp.val ≠ j.val := by omega
    simp [hne]
  · simp [hk]

/-- Settles O18: the return pops the slot that the call pushed. -/
theorem callThenReturnRestores : Obligations.CallThenReturnRestores := by
  intro s nnn hlt
  refine ⟨_, (exec_call nnn s).trans (callTo_of_lt _ s hlt), fun u hsp hstack => ?_⟩
  have husp : u.sp.val = s.sp.val + 1 := congrArg Fin.val hsp
  refine ⟨_, (exec_ret u).trans (returnFromCall_of_succ (k := ⟨s.sp.val, hlt⟩) husp), ?_, rfl⟩
  simp [hstack]

/-! ### Stack and key faults -/

theorem exec_skp_of_gt {x : Reg} {s : State} (h : 15 < (s.reg x).toNat) :
    exec (.skp x) s = .next (s.raise (.keyIndexOutOfRange (s.reg x))) := by
  simp only [exec, execSkp, keyNumber_of_gt h, takeFault_eq]

theorem exec_sknp_of_gt {x : Reg} {s : State} (h : 15 < (s.reg x).toNat) :
    exec (.sknp x) s = .next (s.raise (.keyIndexOutOfRange (s.reg x))) := by
  simp only [exec, execSknp, keyNumber_of_gt h, takeFault_eq]

/-- Settles O14. -/
theorem stackAndKeyFaultsChangeOnlyTheRecord : Obligations.StackAndKeyFaultsChangeOnlyTheRecord :=
  fun s nnn _ => ⟨(exec_call nnn s).trans ∘ callTo_of_full _ s, (exec_sys nnn s).trans ∘ callTo_of_full _ s,
    (exec_ret s).trans ∘ returnFromCall_of_empty s, exec_skp_of_gt, exec_sknp_of_gt⟩

/-! ### Skips -/

theorem exec_seReg (x y : Reg) (s : State) : exec (.seReg x y) s = .next (s.skipIf (s.reg x == s.reg y)) := rfl

theorem exec_sneReg (x y : Reg) (s : State) : exec (.sneReg x y) s = .next (s.skipIf (s.reg x != s.reg y)) := rfl

/-- Settles O21: whether `V[x]` and `V[y]` are equal or not, one of the two conditions holds and the other fails. -/
theorem registerSkipsFollowTheirCondition : Obligations.RegisterSkipsFollowTheirCondition := by
  intro x y s
  rw [exec_seReg, exec_sneReg]
  constructor
  · intro heq
    rw [s.skipIf_of_true (beq_iff_eq.mpr heq), s.skipIf_of_false (bne_eq_false_iff_eq.mpr heq)]
    exact ⟨rfl, rfl⟩
  · intro hne
    rw [s.skipIf_of_false (beq_eq_false_iff_ne.mpr hne), s.skipIf_of_true (bne_iff_ne.mpr hne)]
    exact ⟨rfl, rfl⟩

/-- The key that a register up to 15 names. -/
theorem keyNumber_eq {v : Byte} {k : Key} (h : v.toNat = k.val) : keyNumber v = some k := by
  rw [keyNumber_of_le (by omega)]
  exact congrArg some (Fin.ext h)

theorem exec_skp_of_key {x : Reg} {k : Key} {s : State} (h : (s.reg x).toNat = k.val) :
    exec (.skp x) s = .next (s.skipIf (s.keyDown k)) := by
  simp only [exec, execSkp, keyNumber_eq h]

theorem exec_sknp_of_key {x : Reg} {k : Key} {s : State} (h : (s.reg x).toNat = k.val) :
    exec (.sknp x) s = .next (s.skipIf (!s.keyDown k)) := by
  simp only [exec, execSknp, keyNumber_eq h]

/-- Settles O43: whether the key is down or up, one of the two conditions holds and the other fails. -/
theorem keySkipsTestTheKeyLevel : Obligations.KeySkipsTestTheKeyLevel := by
  intro x k s hk
  rw [exec_skp_of_key hk, exec_sknp_of_key hk]
  constructor
  · intro hdown
    rw [hdown]
    exact ⟨rfl, rfl⟩
  · intro hup
    rw [hup]
    exact ⟨rfl, rfl⟩

/-! ### Jumps -/

theorem exec_jpV0 (nnn : Addr12) (s : State) :
    exec (.jpV0 nnn) s = .next (s.jumpTo (addrOf nnn + wordOf (s.reg 0))) := rfl

/-- The largest sum is 0x10FE, so it does not wrap. -/
theorem toNat_addrOf_add_wordOf (nnn : Addr12) (b : Byte) : (addrOf nnn + wordOf b).toNat = nnn.toNat + b.toNat := by
  rw [toNat_add_wordOf, toNat_addrOf, Nat.mod_eq_of_lt (by omega)]

/-- Settles O22. -/
theorem indexedJumpAddsVZero : Obligations.IndexedJumpAddsVZero :=
  fun nnn s => ⟨_, exec_jpV0 nnn s, toNat_addrOf_add_wordOf nnn (s.reg 0), rfl⟩

/-- Settles O23: the fetched word is JP to the address it stands at, so the jump puts `PC` back. -/
theorem finishedProgramStays : Obligations.FinishedProgramStays := by
  rintro s a ⟨⟨hf, hl⟩, hpc, hhi, hlo⟩
  have haddr : s.pc.toNat = a.toNat := by rw [hpc, toNat_addrOf]
  rw [← haddr] at hhi hlo
  have hfetch := State.fetch_of_memRead hhi hlo
  rw [wordOfBytes_bytesOfWord] at hfetch
  have hdecode : decode (wordNNN 0x1 a) = .ok (.jp a) := decode_eq_ok.mpr (decodeWith_wordNNN_one false a opmap)
  calc step s = exec (.jp a) s.advancePc := step_of_decode_ok hf hl hfetch hdecode
    _ = .next { s with pc := addrOf a } := rfl
    _ = .next s := by rw [← hpc]

end Sys2Proof.Machine
end

section
/-!
PROOFS. Shifts, the random byte and the glyph address (spec/41_alu.md R129, R131, R132, spec/42_index_memory.md R152): the
shifted byte and the bit shifted out as numbers, and O29, O30 and O32, assembled from these.
-/

namespace Sys2Proof.Machine

/-! ### Shifts -/

theorem toNat_byte_shiftRight_one (b : Byte) : (b >>> 1).toNat = b.toNat / 2 := by
  rw [BitVec.toNat_ushiftRight, Nat.shiftRight_eq_div_pow, Nat.pow_one]

theorem toNat_byte_shiftLeft_one (b : Byte) : (b <<< 1).toNat = b.toNat * 2 % 256 := by
  rw [BitVec.toNat_shiftLeft, Nat.shiftLeft_eq, Nat.pow_one]

/-- The bit that a right shift drops, as the flag holds it (R129). -/
theorem toNat_flagByte_lowBit (b : Byte) : (flagByte (lowBit b)).toNat = b.toNat % 2 := by
  revert b; decide

/-- The bit that a left shift drops, as the flag holds it (R131). -/
theorem toNat_flagByte_highBit (b : Byte) : (flagByte (highBit b)).toNat = b.toNat / 128 := by
  revert b; decide

theorem exec_shr (x : Reg) (s : State) :
    exec (.shr x) s = .next (s.setResultAndFlag x (s.reg x >>> 1) (lowBit (s.reg x))) := rfl

theorem exec_shl (x : Reg) (s : State) :
    exec (.shl x) s = .next (s.setResultAndFlag x (s.reg x <<< 1) (highBit (s.reg x))) := rfl

/-- Settles O29: in both, the result is the shifted byte and the flag the bit shifted out. -/
theorem shiftsMoveTheBitShiftedOutToTheFlag : Obligations.ShiftsMoveTheBitShiftedOutToTheFlag := by
  intro x s
  exact ⟨writes_result_and_flag (exec_shr x s) (toNat_byte_shiftRight_one _) (toNat_flagByte_lowBit _),
    writes_result_and_flag (exec_shl x s) (toNat_byte_shiftLeft_one _) (toNat_flagByte_highBit _)⟩

/-! ### The random byte -/

theorem exec_rnd (x : Reg) (nn : Byte) (s : State) :
    exec (.rnd x nn) s = .next (s.advanceRng.setReg x (Config.rand s.rng &&& nn)) := rfl

/-- A masked byte has no bit outside the mask. -/
theorem byte_and_and_not (b nn : Byte) : b &&& nn &&& ~~~nn = 0 := by
  simp [BitVec.and_assoc]

/-- Settles O30. -/
theorem randomByteIsMasked : Obligations.RandomByteIsMasked := by
  intro x nn s
  have hreg : (s.advanceRng.setReg x (Config.rand s.rng &&& nn)).reg x = Config.rand s.rng &&& nn := by
    rw [State.reg_setReg, if_pos rfl]
  refine ⟨_, exec_rnd x nn s, hreg, ?_, rfl, fun r hr => ?_, rfl⟩
  · rw [hreg, byte_and_and_not]
  · rw [State.reg_setReg, if_neg hr, State.reg_advanceRng]

/-! ### The glyph address -/

theorem exec_ldF (x : Reg) (s : State) : exec (.ldF x) s = .next (s.setI (glyphAddress (s.reg x))) := rfl

/-- Five times a byte is below 65536. -/
theorem toNat_glyphAddress (b : Byte) : (glyphAddress b).toNat = b.toNat * 5 := by
  have hfive : (5 : Word).toNat = 5 := rfl
  rw [glyphAddress, BitVec.toNat_mul, toNat_wordOf, hfive, Nat.mod_eq_of_lt (by omega)]

/-- Settles O32. -/
theorem glyphAddressIsFiveTimesTheRegister : Obligations.GlyphAddressIsFiveTimesTheRegister :=
  fun x s => writes_only_i (exec_ldF x s) (toNat_glyphAddress (s.reg x))

end Sys2Proof.Machine
end

section
/-!
PROOFS. Memory (spec/20_memory.md R55, R60, R62, spec/42_index_memory.md R153 to R156): a store and a load that stay inside
memory, the canonical form as a function of what it reads as, and O33 to O38, assembled from these.
-/

namespace Sys2Proof.Machine

/-! ### Stores inside memory -/

/-- An instruction that stores at `I`, every byte inside memory: the bytes stand there in order, and nothing else differs. -/
theorem store_in_range {i : Instr} {s : State} {bs : List Byte} (h : exec i s = storeBytes s.dataBase bs s)
    (hin : s.i.toNat + bs.length ≤ 0x1000) :
    ∃ t, exec i s = .next t ∧ (∀ k, k < bs.length → t.memRead (s.i.toNat + k) = some (bs.getD k 0)) ∧
      (∀ a, a < s.i.toNat ∨ s.i.toNat + bs.length ≤ a → t.memRead a = s.memRead a) ∧ t = { s with mem := t.mem } := by
  refine ⟨_, h.trans (storeBytes_of_inRange s hin), fun k hk => ?_, fun a ha => State.memRead_congr ?_, rfl⟩
  · rw [State.memRead_of_lt (by omega)]
    show some ((s.mem.writeBytes s.i.toNat bs).read _) = _
    rw [Memory.read_writeBytes, if_pos (by omega), Nat.add_sub_cancel_left]
  · show (s.mem.writeBytes s.i.toNat bs).read a = _
    rw [Memory.read_writeBytes, if_neg (by omega)]

/-- Settles O33: the three digits, each below 10, are stored as bytes. -/
theorem bcdDigitsAreStored : Obligations.BcdDigitsAreStored := by
  intro x s hi
  obtain ⟨t, ht, hbytes, hother, hframe⟩ := store_in_range (exec_ldB x s) (by rw [bcdDigits_length]; omega)
  rw [bcdDigits_length] at hbytes hother
  refine ⟨t, ht, ⟨_, _, _, hbytes 0 (by decide), hbytes 1 (by decide), hbytes 2 (by decide), ?_, ?_, ?_⟩,
    fun a ha => hother a (by omega), hframe⟩
  · exact BitVec.toNat_udiv
  · exact BitVec.toNat_umod.trans (congrArg (· % 10) BitVec.toNat_udiv)
  · exact BitVec.toNat_umod

/-- Byte `k` of a register dump is `V[k]`. -/
theorem State.regsUpTo_getD (s : State) {x k : Reg} (hk : k ≤ x) : (s.regsUpTo x).getD k.val 0 = s.reg k := by
  have hlt : k.val < (s.regsUpTo x).length := by rw [State.regsUpTo_length]; exact Nat.lt_succ_of_le hk
  rw [List.getD_eq_getElem _ _ hlt]
  simp [State.regsUpTo, State.reg]

/-- Settles O34. -/
theorem registerDumpStoresUpToX : Obligations.RegisterDumpStoresUpToX := by
  intro x s hi
  obtain ⟨t, ht, hbytes, hother, hframe⟩ := store_in_range (exec_stRegs x s) (by rw [State.regsUpTo_length]; omega)
  rw [State.regsUpTo_length] at hbytes hother
  refine ⟨t, ht, fun k hk => ?_, fun a ha => hother a (by omega), hframe⟩
  rw [hbytes k.val (Nat.lt_succ_of_le hk), State.regsUpTo_getD s hk]

/-! ### Loads inside memory -/

/-- Settles O35. -/
theorem registerLoadReadsUpToX : Obligations.RegisterLoadReadsUpToX := by
  intro x s hi
  have hin : s.dataBase + (x.val + 1) ≤ Config.memSize := by rw [Config.memSize, State.dataBase]; omega
  refine ⟨_, (exec_ldRegs x s).trans (loadRegsFrom_of_inRange s hin), fun k hk => ?_, fun k hk => ?_, rfl⟩
  · have hkx : k.val ≤ x.val := hk
    rw [State.reg_setRegs, if_pos hk, State.memRead_of_lt (by omega)]
    rfl
  · rw [State.reg_setRegs, if_neg (Fin.not_le.mpr hk)]

/-- Settles O36: each register reads back the byte it was stored as. -/
theorem dumpThenLoadRestoresRegisters : Obligations.DumpThenLoadRestoresRegisters := by
  intro x s hi
  obtain ⟨t, ht, hstored, -⟩ := registerDumpStoresUpToX x s hi
  refine ⟨t, ht, fun u hmem hui => ?_⟩
  obtain ⟨v, hv, hloaded, -⟩ := registerLoadReadsUpToX x u (hui ▸ hi)
  refine ⟨v, hv, fun k hk => Option.some.inj ?_⟩
  calc some (v.reg k) = u.memRead (u.i.toNat + k.val) := (hloaded k hk).symm
    _ = t.memRead (s.i.toNat + k.val) := by rw [hui]; exact State.memRead_congr (by rw [hmem])
    _ = some (s.reg k) := hstored k hk

/-- Settles O37: the fetch reads what the dump stored, since both read the one memory. -/
theorem storedBytesAreFetchedNext : Obligations.StoredBytesAreFetchedNext := by
  intro x s hx hi
  obtain ⟨t, ht, hstored, -⟩ := registerDumpStoresUpToX x s hi
  refine ⟨t, ht, fun u hmem hpc hf hl i hdecode => ?_⟩
  have hread : ∀ a, u.memRead a = t.memRead a := fun a => State.memRead_congr (by rw [hmem])
  have hhi : u.memRead u.pc.toNat = some (s.reg 0) := by rw [hread, hpc]; exact hstored 0 (Fin.zero_le x)
  have hlo : u.memRead (u.pc.toNat + 1) = some (s.reg 1) := by rw [hread, hpc]; exact hstored 1 hx
  exact step_of_decode_ok hf hl (State.fetch_of_memRead hhi hlo) hdecode

/-! ### The canonical form -/

/-- The canonical form of a listed memory: its first cell is inside the space and differs from what it would read as unlisted. -/
theorem Memory.wfFrom_cons {lo a : Nat} {b : Byte} {rest : Memory} :
    Memory.wfFrom lo ((a, b) :: rest) = true ↔
      lo ≤ a ∧ a < Config.memSize ∧ b ≠ Memory.initial a ∧ rest.wfFrom (a + 1) = true := by
  simp only [Memory.wfFrom, Bool.and_eq_true, decide_eq_true_eq, and_assoc]

/-- No address below the first of a canonical list is listed. -/
theorem Memory.read_of_lt {lo a : Nat} {m : Memory} (h : m.wfFrom lo = true) (ha : a < lo) : m.read a = Memory.initial a := by
  suffices hnone : m.lookup a = none by rw [Memory.read, hnone]; rfl
  induction m generalizing lo with
  | nil => rfl
  | cons cell rest ih =>
    obtain ⟨b, w⟩ := cell
    obtain ⟨hlo, -, -, hrest⟩ := Memory.wfFrom_cons.mp h
    rw [Memory.lookup, if_neg (by omega)]
    exact ih hrest (by omega)

theorem Memory.read_cons (a addr : Nat) (b : Byte) (rest : Memory) :
    Memory.read ((a, b) :: rest) addr = if addr = a then b else rest.read addr := by
  unfold Memory.read
  rw [Memory.lookup]
  split <;> rfl

/-- A canonical list whose first address is listed differs there from one whose addresses are all above it. -/
theorem Memory.read_ne_of_lt {lo a : Nat} {b : Byte} {rest m' : Memory} (h : Memory.wfFrom lo ((a, b) :: rest) = true)
    (h' : m'.wfFrom (a + 1) = true) : Memory.read ((a, b) :: rest) a ≠ m'.read a := by
  obtain ⟨-, -, hb, -⟩ := Memory.wfFrom_cons.mp h
  rw [Memory.read_cons, if_pos rfl, Memory.read_of_lt h' (Nat.lt_succ_self a)]
  exact hb

/-- By induction on both lists: their first cells agree, for the lower of two addresses would read differently. -/
theorem Memory.eq_of_read_eq {lo : Nat} {m m' : Memory} (h : m.wfFrom lo = true) (h' : m'.wfFrom lo = true)
    (hread : ∀ a, m.read a = m'.read a) : m = m' := by
  induction m generalizing lo m' with
  | nil =>
    cases m' with
    | nil => rfl
    | cons cell' rest' => exact absurd (hread cell'.1).symm (Memory.read_ne_of_lt h' rfl)
  | cons cell rest ih =>
    obtain ⟨a, b⟩ := cell
    cases m' with
    | nil => exact absurd (hread a) (Memory.read_ne_of_lt h rfl)
    | cons cell' rest' =>
      obtain ⟨a', b'⟩ := cell'
      obtain ⟨hlo, hin, hb, hrest⟩ := Memory.wfFrom_cons.mp h
      obtain ⟨hlo', hin', hb', hrest'⟩ := Memory.wfFrom_cons.mp h'
      rcases Nat.lt_trichotomy a a' with hlt | rfl | hlt
      · exact absurd (hread a) (Memory.read_ne_of_lt h (Memory.wfFrom_cons.mpr ⟨hlt, hin', hb', hrest'⟩))
      · have hbb' : b = b' := by simpa [Memory.read_cons] using hread a
        have htail : ∀ addr, Memory.read rest addr = Memory.read rest' addr := by
          intro addr
          by_cases hne : addr = a
          · rw [hne, Memory.read_of_lt hrest (Nat.lt_succ_self a), Memory.read_of_lt hrest' (Nat.lt_succ_self a)]
          · simpa [Memory.read_cons, hne] using hread addr
        rw [hbb', ih hrest hrest' htail]
      · exact absurd (hread a').symm (Memory.read_ne_of_lt h' (Memory.wfFrom_cons.mpr ⟨hlt, hin, hb, hrest⟩))

/-- Settles O38, the canonical form from address 0. -/
theorem canonicalMemoriesThatReadAlikeAreEqual : Obligations.CanonicalMemoriesThatReadAlikeAreEqual :=
  fun _ _ => Memory.eq_of_read_eq

end Sys2Proof.Machine
end

section
/-!
PROOFS. The picture (spec/43_display.md R170, R172): the controller's three operations, a draw as an exclusive or with the
wrapped mask, and O40 and O41, assembled from these.
-/

namespace Sys2Proof.Machine

/-- Settles O40. -/
theorem frameBufferOperations : Obligations.FrameBufferOperations := by
  intro fb px py c r
  refine ⟨Frame.getPixel_congr fb (Nat.add_mod_right px 64) rfl, Frame.getPixel_congr fb rfl (Nat.add_mod_right py 32),
    Frame.flipPixel_snd fb px py, ?_, fun hne => ?_, Frame.getPixel_cleared px py⟩
  · rw [Frame.getPixel_flipPixel, decide_eq_true ⟨rfl, rfl⟩, Bool.xor_true]
  · rw [Frame.getPixel_flipPixel, decide_eq_false (by omega), Bool.xor_false]

/-- The mask of the sprite in memory is that of the rows the engine reads. -/
theorem spriteCovers_iff (m : Memory) (base n px py c r : Nat) :
    SpriteCovers m base n px py c r ↔ rowsCover (m.readBytes base n) px py c r := by
  have hrow : ∀ row, row < n → (m.readBytes base n).getD row 0 = m.read (base + row) := by
    intro row h
    rw [List.getD_eq_getElem _ _ (by rwa [Memory.readBytes_length]), Memory.readBytes_getElem]
  unfold SpriteCovers rowsCover
  rw [Memory.readBytes_length]
  refine exists_congr fun row => exists_congr fun col => and_congr_right fun h => ?_
  rw [hrow row h]

/-- Settles O41, by what the sprite engine does to each cell under and beside the mask. -/
theorem drawIsExclusiveOrWithTheMask : Obligations.DrawIsExclusiveOrWithTheMask := by
  intro x y n s hin
  obtain ⟨hpix, hflag⟩ := drawRows_spec _ (s.fb, false) (s.reg x).toNat (s.reg y).toNat (sprite_length_le s n)
  simp only [spriteCovers_iff]
  refine ⟨_, exec_drw_of_inRange hin, fun c r => (hpix c r).1, fun c r => (hpix c r).2, fun hmet => ?_, fun hmissed => ?_,
    fun r hr => ?_, rfl⟩
  · rw [State.reg_setReg, if_pos rfl, flagByte_eq_one_iff]
    exact hflag.mpr (.inr hmet)
  · rw [State.reg_setReg, if_pos rfl, flagByte_eq_zero_iff, Bool.eq_false_iff]
    intro hset
    rcases hflag.mp hset with h | ⟨c, r, hc, hp⟩
    · cases h
    · exact absurd hp (Bool.eq_false_iff.mp (hmissed c r hc))
  · rw [State.reg_setReg, if_neg hr]
    rfl

end Sys2Proof.Machine
end

section
/-!
PROOFS. Faults and frames (spec/00_scope.md R7, spec/60_exceptions.md R210 to R215): the fault an instruction records, one rule
per state operation for staying inside a footprint, and O13 and O12, assembled from these.
-/

namespace Sys2Proof.Machine

/-! ### The fault table -/

/-- An access inside memory, or of no byte, has no range fault. -/
theorem rangeFault_of_inRange {s : State} {n : Nat} (h : n = 0 ∨ s.dataBase + n ≤ Config.memSize) : rangeFault s n = none := by
  rw [Config.memSize, State.dataBase] at h
  exact if_neg (by omega)

/-- An access that reaches a byte above 0xFFF reports the first one (R212). -/
theorem rangeFault_of_outOfRange {s : State} {n : Nat} (h0 : n ≠ 0) (h : Config.memSize < s.dataBase + n) :
    rangeFault s n = some (.memoryOutOfRange (max s.dataBase Config.memSize)) := by
  rw [Config.memSize, State.dataBase] at h
  exact if_pos (by omega)

/-- A call records the overflow exactly when all entries are in use. -/
theorem callTo_fault {target : Word} {s t : State} (h : callTo target s = .next t) :
    t.fault = (if s.sp.val = 16 then some Fault.stackOverflow else none).or s.fault := by
  rcases callTo_cases h with ⟨hlt, rfl⟩ | ⟨hfull, rfl⟩
  · rw [if_neg (by omega)]; rfl
  · rw [if_pos hfull]; rfl

theorem returnFromCall_fault {s t : State} (h : returnFromCall s = .next t) :
    t.fault = (if s.sp.val = 0 then some Fault.stackUnderflow else none).or s.fault := by
  rcases returnFromCall_cases h with ⟨hpos, rfl⟩ | ⟨hempty, rfl⟩
  · rw [if_neg (by omega)]; rfl
  · rw [if_pos hempty]; rfl

theorem storeBytes_fault {bs : List Byte} {s t : State} (h : storeBytes s.dataBase bs s = .next t) :
    t.fault = (rangeFault s bs.length).or s.fault := by
  rcases storeBytes_cases h with ⟨hin, rfl⟩ | ⟨⟨h0, hout⟩, rfl⟩
  · rw [rangeFault_of_inRange hin]; rfl
  · rw [rangeFault_of_outOfRange h0 hout]; rfl

theorem loadRegsFrom_fault {x : Reg} {s t : State} (h : loadRegsFrom s.dataBase x s = .next t) :
    t.fault = (rangeFault s (x.val + 1)).or s.fault := by
  rcases loadRegsFrom_cases h with ⟨hin, rfl⟩ | ⟨hout, rfl⟩
  · rw [rangeFault_of_inRange (.inr hin)]; rfl
  · rw [rangeFault_of_outOfRange (by omega) hout]; rfl

theorem drawSprite_fault {n px py : Nat} {s t : State} (h : drawSprite s.dataBase n px py s = .next t) :
    t.fault = (rangeFault s n).or s.fault := by
  rcases drawSprite_cases h with ⟨hin, rfl⟩ | ⟨⟨h0, hout⟩, rfl⟩
  · rw [rangeFault_of_inRange hin]; rfl
  · rw [rangeFault_of_outOfRange h0 hout]; rfl

/-- All that SKP can do, by whether the register names a key. -/
theorem exec_skp_cases {x : Reg} {s t : State} (h : exec (.skp x) s = .next t) :
    ((s.reg x).toNat ≤ 15 ∧ ∃ c, t = s.skipIf c) ∨
      (15 < (s.reg x).toNat ∧ t = s.raise (.keyIndexOutOfRange (s.reg x))) := by
  rcases Nat.lt_or_ge 15 (s.reg x).toNat with hgt | hle
  · rw [exec_skp_of_gt hgt] at h
    exact .inr ⟨hgt, by cases h; rfl⟩
  · rw [exec_skp_of_key (k := ⟨_, Nat.lt_succ_of_le hle⟩) rfl] at h
    exact .inl ⟨hle, _, by cases h; rfl⟩

/-- All that SKNP can do, likewise. -/
theorem exec_sknp_cases {x : Reg} {s t : State} (h : exec (.sknp x) s = .next t) :
    ((s.reg x).toNat ≤ 15 ∧ ∃ c, t = s.skipIf c) ∨
      (15 < (s.reg x).toNat ∧ t = s.raise (.keyIndexOutOfRange (s.reg x))) := by
  rcases Nat.lt_or_ge 15 (s.reg x).toNat with hgt | hle
  · rw [exec_sknp_of_gt hgt] at h
    exact .inr ⟨hgt, by cases h; rfl⟩
  · rw [exec_sknp_of_key (k := ⟨_, Nat.lt_succ_of_le hle⟩) rfl] at h
    exact .inl ⟨hle, _, by cases h; rfl⟩

/-- A key skip's fault is that of its register. -/
theorem keySkip_fault {b : Byte} {s t : State}
    (h : (b.toNat ≤ 15 ∧ ∃ c, t = s.skipIf c) ∨ (15 < b.toNat ∧ t = s.raise (.keyIndexOutOfRange b))) :
    t.fault = (if 15 < b.toNat then some (Fault.keyIndexOutOfRange b) else none).or s.fault := by
  rcases h with ⟨hle, c, rfl⟩ | ⟨hgt, rfl⟩
  · rw [if_neg (Nat.not_lt.mpr hle), State.skipIf_fault]; rfl
  · rw [if_pos hgt]; rfl

/-- What an instruction records is its row of the table of R210. -/
theorem exec_fault {i : Instr} {s t : State} (h : exec i s = .next t) : t.fault = (faultOf s i).or s.fault := by
  cases i
  case ret => exact returnFromCall_fault h
  case call => exact callTo_fault h
  case sys => exact callTo_fault h
  case drw => exact drawSprite_fault h
  case ldB => exact storeBytes_fault h
  case stRegs x =>
    have hf := storeBytes_fault h
    rwa [State.regsUpTo_length] at hf
  case ldRegs => exact loadRegsFrom_fault h
  case skp => exact keySkip_fault (exec_skp_cases h)
  case sknp => exact keySkip_fault (exec_sknp_cases h)
  all_goals (cases h; simp [faultOf])

/-- Settles O13. -/
theorem instructionsFaultExactlyWhereListed : Obligations.InstructionsFaultExactlyWhereListed := by
  intro i s
  obtain ⟨t, ht⟩ := exec_answers_next i s
  exact ⟨t, ht, exec_fault ht⟩

/-! ### Staying inside a footprint, one rule per state operation -/

section

variable {f : Footprint} {s t : State}

theorem Footprint.Covers.refl (f : Footprint) (s : State) : f.Covers s s := by
  constructor <;> intros <;> rfl

theorem Footprint.Covers.setReg (h : f.Covers s t) (x : Reg) (b : Byte) (hx : f.regs x = true) :
    f.Covers s (t.setReg x b) :=
  { h with
    regs := fun r hr => by
      have hne : r ≠ x := by rintro rfl; simp [hx] at hr
      rw [State.reg_setReg, if_neg hne, h.regs r hr] }

theorem Footprint.Covers.setResultAndFlag (h : f.Covers s t) (x : Reg) (b : Byte) (flag : Bool) (hx : f.regs x = true)
    (hv : f.regs VF = true) : f.Covers s (t.setResultAndFlag x b flag) :=
  (h.setReg x b hx).setReg VF (flagByte flag) hv

theorem Footprint.Covers.setV (h : f.Covers s t) (v : Vector Byte 16)
    (hv : ∀ r : Reg, f.regs r = false → v[r.val] = s.reg r) : f.Covers s { t with v := v } :=
  { h with regs := hv }

theorem Footprint.Covers.setRegs (h : f.Covers s t) (g : Reg → Byte) (hg : ∀ r, f.regs r = false → g r = s.reg r) :
    f.Covers s (t.setRegs g) :=
  h.setV (Vector.ofFn g) fun r hr => (Vector.getElem_ofFn r.isLt).trans (hg r hr)

theorem Footprint.Covers.writeBytes (h : f.Covers s t) (base : Nat) (bs : List Byte)
    (hm : ∀ a, base ≤ a → a < base + bs.length → f.mem a = true) :
    f.Covers s { t with mem := t.mem.writeBytes base bs } :=
  { h with
    mem := fun a ha => by
      have hout : ¬ (base ≤ a ∧ a < base + bs.length) := fun ⟨h1, h2⟩ => by simp [hm a h1 h2] at ha
      rw [← h.mem a ha]
      exact State.memRead_congr (by rw [Memory.read_writeBytes, if_neg hout]) }

theorem Footprint.Covers.setI (h : f.Covers s t) (w : Word) (hi : f.index = true) : f.Covers s (t.setI w) :=
  { h with index := fun hf => by simp [hi] at hf }

theorem Footprint.Covers.jumpTo (h : f.Covers s t) (w : Word) (hpc : f.pc = true) : f.Covers s (t.jumpTo w) :=
  { h with pc := fun hf => by simp [hpc] at hf }

theorem Footprint.Covers.skipIf (h : f.Covers s t) (c : Bool) (hpc : f.pc = true) : f.Covers s (t.skipIf c) := by
  cases c
  · exact h
  · exact h.jumpTo (t.pc + 2) hpc

theorem Footprint.Covers.setDt (h : f.Covers s t) (b : Byte) (hdt : f.dt = true) : f.Covers s (t.setDt b) :=
  { h with dt := fun hf => by simp [hdt] at hf }

theorem Footprint.Covers.setSt (h : f.Covers s t) (b : Byte) (hst : f.st = true) : f.Covers s (t.setSt b) :=
  { h with st := fun hf => by simp [hst] at hf }

theorem Footprint.Covers.setFb (h : f.Covers s t) (fb : Frame) (hfb : f.fb = true) : f.Covers s { t with fb := fb } :=
  { h with fb := fun hf => by simp [hfb] at hf }

theorem Footprint.Covers.awaitKey (h : f.Covers s t) (x : Reg) (hl : f.latch = true) : f.Covers s (t.awaitKey x) :=
  { h with latch := fun hf => by simp [hl] at hf }

theorem Footprint.Covers.advanceRng (h : f.Covers s t) (hr : f.rng = true) : f.Covers s t.advanceRng :=
  { h with rng := fun hf => by simp [hr] at hf }

theorem Footprint.Covers.pop (h : f.Covers s t) (n : Fin 17) (w : Word) (hsp : f.sp = true) (hpc : f.pc = true) :
    f.Covers s { t with sp := n, pc := w } :=
  { h with
    sp := fun hf => by simp [hsp] at hf
    pc := fun hf => by simp [hpc] at hf }

theorem Footprint.Covers.setSlot (h : f.Covers s t) (n : Nat) (w : Word) (hn : n < 16) (hstack : f.stack n = true) :
    f.Covers s { t with stack := t.stack.set n w hn } :=
  { h with
    stack := fun k hk => by
      have hne : n ≠ k.val := by rintro rfl; simp [hstack] at hk
      rw [Vector.getElem_set_ne _ _ hne, h.stack k hk] }

end

/-! ### The footprint of each instruction -/

theorem callTo_covers {f : Footprint} {target : Word} {s t : State} (hlt : s.sp.val ≠ 16) (h : callTo target s = .next t)
    (hstack : f.stack s.sp.val = true) (hsp : f.sp = true) (hpc : f.pc = true) : f.Covers s t := by
  rcases callTo_cases h with ⟨hlt, rfl⟩ | ⟨hfull, -⟩
  · exact ((Footprint.Covers.refl f s).setSlot s.sp.val s.pc hlt hstack).pop _ _ hsp hpc
  · exact absurd hfull hlt

theorem storeBytes_covers {f : Footprint} {bs : List Byte} {s t : State} (hf : rangeFault s bs.length = none)
    (h : storeBytes s.dataBase bs s = .next t)
    (hm : ∀ a, s.dataBase ≤ a → a < s.dataBase + bs.length → f.mem a = true) : f.Covers s t := by
  rcases storeBytes_cases h with ⟨-, rfl⟩ | ⟨⟨h0, hout⟩, -⟩
  · exact (Footprint.Covers.refl f s).writeBytes _ bs hm
  · cases hf.symm.trans (rangeFault_of_outOfRange h0 hout)

theorem keySkip_covers {f : Footprint} {b : Byte} {s t : State} (hle : ¬ 15 < b.toNat)
    (h : (b.toNat ≤ 15 ∧ ∃ c, t = s.skipIf c) ∨ (15 < b.toNat ∧ t = s.raise (.keyIndexOutOfRange b)))
    (hpc : f.pc = true) : f.Covers s t := by
  rcases h with ⟨-, c, rfl⟩ | ⟨hgt, -⟩
  · exact (Footprint.Covers.refl f s).skipIf c hpc
  · exact absurd hgt hle

/-- Settles O12, instruction by instruction, by the rules of the operations that each is written over. -/
theorem everyInstructionStaysInItsFootprint : Obligations.EveryInstructionStaysInItsFootprint := by
  intro i s t hfault h
  have unchanged : (footprint s i).Covers s s := .refl _ s
  cases i
  case cls => cases h; exact unchanged.setFb _ rfl
  case ret =>
    rcases returnFromCall_cases h with ⟨-, rfl⟩ | ⟨hempty, -⟩
    · exact unchanged.pop _ _ rfl rfl
    · simp [faultOf, hempty] at hfault
  case sys => exact callTo_covers (by simpa [faultOf] using hfault) h (beq_self_eq_true _) rfl rfl
  case call => exact callTo_covers (by simpa [faultOf] using hfault) h (beq_self_eq_true _) rfl rfl
  case jp => cases h; exact unchanged.jumpTo _ rfl
  case jpV0 => cases h; exact unchanged.jumpTo _ rfl
  case seImm => cases h; exact unchanged.skipIf _ rfl
  case sneImm => cases h; exact unchanged.skipIf _ rfl
  case seReg => cases h; exact unchanged.skipIf _ rfl
  case sneReg => cases h; exact unchanged.skipIf _ rfl
  case ldImm x _ => cases h; exact unchanged.setReg x _ (beq_self_eq_true x)
  case addImm x _ => cases h; exact unchanged.setReg x _ (beq_self_eq_true x)
  case ldReg x _ => cases h; exact unchanged.setReg x _ (beq_self_eq_true x)
  case orReg x _ => cases h; exact unchanged.setReg x _ (beq_self_eq_true x)
  case andReg x _ => cases h; exact unchanged.setReg x _ (beq_self_eq_true x)
  case xorReg x _ => cases h; exact unchanged.setReg x _ (beq_self_eq_true x)
  case ldVxDt x => cases h; exact unchanged.setReg x _ (beq_self_eq_true x)
  case rnd x _ => cases h; exact (unchanged.advanceRng rfl).setReg x _ (beq_self_eq_true x)
  case addReg x _ => cases h; exact unchanged.setResultAndFlag x _ _ (by simp [footprint]) (by simp [footprint])
  case sub x _ => cases h; exact unchanged.setResultAndFlag x _ _ (by simp [footprint]) (by simp [footprint])
  case subn x _ => cases h; exact unchanged.setResultAndFlag x _ _ (by simp [footprint]) (by simp [footprint])
  case shr x => cases h; exact unchanged.setResultAndFlag x _ _ (by simp [footprint]) (by simp [footprint])
  case shl x => cases h; exact unchanged.setResultAndFlag x _ _ (by simp [footprint]) (by simp [footprint])
  case ldI => cases h; exact unchanged.setI _ rfl
  case addI => cases h; exact unchanged.setI _ rfl
  case ldF => cases h; exact unchanged.setI _ rfl
  case drw =>
    rcases drawSprite_cases h with ⟨-, rfl⟩ | ⟨⟨h0, hout⟩, -⟩
    · exact (unchanged.setFb _ rfl).setReg VF _ rfl
    · cases hfault.symm.trans (rangeFault_of_outOfRange h0 hout)
  case skp => exact keySkip_covers (by simpa [faultOf] using hfault) (exec_skp_cases h) rfl
  case sknp => exact keySkip_covers (by simpa [faultOf] using hfault) (exec_sknp_cases h) rfl
  case ldVxK x => cases h; exact unchanged.awaitKey x rfl
  case ldDtVx => cases h; exact unchanged.setDt _ rfl
  case ldStVx => cases h; exact unchanged.setSt _ rfl
  case ldB x => exact storeBytes_covers (bs := bcdDigits (s.reg x)) hfault h fun a h1 h2 => decide_eq_true ⟨h1, h2⟩
  case stRegs x =>
    have hlen := s.regsUpTo_length x
    refine storeBytes_covers (by rw [hlen]; exact hfault) h fun a h1 h2 => decide_eq_true ⟨h1, ?_⟩
    rw [hlen] at h2
    exact Nat.le_of_lt_succ h2
  case ldRegs x =>
    rcases loadRegsFrom_cases h with ⟨-, rfl⟩ | ⟨hout, -⟩
    · exact unchanged.setRegs _ fun r hr => if_neg (of_decide_eq_false hr)
    · cases hfault.symm.trans (rangeFault_of_outOfRange (by omega) hout)

end Sys2Proof.Machine
end

section
/-!
PROOFS. The scheduler's arithmetic (spec/60_exceptions.md R224, R225, decision D18): a map of numbers that respects what the
scheduler needs of them carries each of its calls over, the terms of the state to the reals and the rationals to the reals, and
O60 and O54, assembled from these.
-/

namespace Sys2Proof.Machine

/-! ### Arithmetic carried over -/

/-- `f` respects all that the scheduler needs of its numbers. -/
structure TimeArith.Hom {K L : Type} (A : TimeArith K) (B : TimeArith L) (f : K → L) : Prop where
  add : ∀ a b, f (A.add a b) = B.add (f a) (f b)
  sub : ∀ a b, f (A.sub a b) = B.sub (f a) (f b)
  div : ∀ a b, f (A.div a b) = B.div (f a) (f b)
  one : f A.one = B.one
  sixtieth : f A.sixtieth = B.sixtieth
  isPos : ∀ a, A.isPos a = B.isPos (f a)
  isNonneg : ∀ a, A.isNonneg a = B.isNonneg (f a)
  iterations : ∀ a b, A.iterations a b = B.iterations (f a) (f b)

/-- A term and the real number it stands for. -/
theorem TimeArith.hom_value (ρ : RealValues) : (TimeArith.terms ρ).Hom (.field ℝ) (RealTerm.value ρ) where
  add := RealTerm.value_plus ρ
  sub := RealTerm.value_minus ρ
  div := RealTerm.value_over ρ
  one := Rat.cast_one
  sixtieth := TimeArith.terms_sixtieth_value ρ
  isPos := RealTerm.isPos_eq ρ
  isNonneg := RealTerm.isNonneg_eq ρ
  iterations := RealTerm.iterations_eq ρ

/-- A rational number and the real number it is. -/
theorem TimeArith.hom_cast : (TimeArith.field Rat).Hom (.field ℝ) (fun q : Rat => (q : ℝ)) where
  add := Rat.cast_add
  sub := Rat.cast_sub
  div := Rat.cast_div
  one := Rat.cast_one
  sixtieth := by simp
  isPos a := by simp
  isNonneg a := by simp
  iterations a b := (iterationsDue_cast a b).symm

/-- An answer with what it carries mapped. -/
def mapAnswer {α β : Type} (g : α → β) : Host.Outcome α Fault Refusal → Host.Outcome β Fault Refusal
  | .next a => .next (g a)
  | .fault f => .fault f
  | .refused r => .refused r

theorem mapAnswer_eq_refused {α β : Type} {g : α → β} {o : Host.Outcome α Fault Refusal} {why : Refusal}
    (h : mapAnswer g o = .refused why) : o = .refused why := by
  cases o with
  | next a => cases h
  | fault f => cases h
  | refused r => cases h; rfl

theorem mapAnswer_eq_next {α β : Type} {g : α → β} {o : Host.Outcome α Fault Refusal} {b : β}
    (h : mapAnswer g o = .next b) : ∃ a, o = .next a ∧ g a = b := by
  cases o with
  | next a => exact ⟨a, rfl, by cases h; rfl⟩
  | fault f => cases h
  | refused r => cases h

/-- An answer of the scheduler with the clock in it carried over. -/
def mapClock {K L : Type} (f : K → L) (answer : State × Clock K × AdvanceResult) : State × Clock L × AdvanceResult :=
  (answer.1, answer.2.1.map f, answer.2.2)

section

variable {K L : Type} {A : TimeArith K} {B : TimeArith L} {f : K → L} (hom : A.Hom B f)

include hom

theorem TimeArith.Hom.map_elapse (c : Clock K) (dt : K) : (c.elapse A dt).map f = (c.map f).elapse B (f dt) := by
  simp only [Clock.map, Clock.elapse, hom.sub]

theorem TimeArith.Hom.map_rearmCpu (c : Clock K) : (c.rearmCpu A).map f = (c.map f).rearmCpu B := by
  simp only [Clock.map, Clock.rearmCpu, hom.add]

theorem TimeArith.Hom.map_rearmTimer (c : Clock K) : (c.rearmTimer A).map f = (c.map f).rearmTimer B := by
  simp only [Clock.map, Clock.rearmTimer, hom.add, hom.sixtieth]

theorem TimeArith.Hom.instructionLoop (p : Params) (n executed : Nat) (c : Clock K) (s : State) :
    instructionLoop B p n executed (c.map f) s = mapAnswer (mapClock f) (instructionLoop A p n executed c s) := by
  induction n generalizing executed c s with
  | zero => rfl
  | succ n ih =>
    have hcpu : B.isPos (c.map f).cpu = A.isPos c.cpu := (hom.isPos c.cpu).symm
    rw [Machine.instructionLoop, Machine.instructionLoop, hcpu, ← hom.map_rearmCpu]
    split
    · rfl
    · split
      · exact ih ..
      · cases stepWith p s with
        | next t =>
          dsimp only
          split
          · rfl
          · exact ih ..
        | fault f => rfl
        | refused r => rfl

theorem TimeArith.Hom.timerLoop (n : Nat) (c : Clock K) (s : State) :
    timerLoop B n (c.map f) s = ((timerLoop A n c s).1, (timerLoop A n c s).2.map f) := by
  induction n generalizing c s with
  | zero => rfl
  | succ n ih =>
    have htimer : B.isPos (c.map f).timer = A.isPos c.timer := (hom.isPos c.timer).symm
    rw [Machine.timerLoop, Machine.timerLoop, htimer, ← hom.map_rearmTimer]
    split
    · rfl
    · exact ih ..

/-- `advance` on the carried clock answers what it answers on the clock, its clock carried over. -/
theorem TimeArith.Hom.advanceClock (p : Params) (dt : K) (c : Clock K) (s : State) :
    advanceClock B p (f dt) (c.map f) s = mapAnswer (mapClock f) (advanceClock A p dt c s) := by
  have hguard : (B.isNonneg (f dt) && B.isPos (c.map f).period) = (A.isNonneg dt && A.isPos c.period) := by
    rw [hom.isNonneg, hom.isPos c.period]; rfl
  have hdue : B.iterations ((c.map f).elapse B (f dt)).cpu (c.map f).period = A.iterations (c.elapse A dt).cpu c.period := by
    rw [← hom.map_elapse, hom.iterations]; rfl
  rw [Machine.advanceClock, Machine.advanceClock, hguard, hdue, ← hom.map_elapse, hom.instructionLoop]
  split
  · cases Machine.instructionLoop A p (A.iterations (c.elapse A dt).cpu c.period) 0 (c.elapse A dt) s with
    | next answer =>
      obtain ⟨t, c', result⟩ := answer
      cases result with
      | ok executed =>
        have htimer : B.iterations (c'.map f).timer B.sixtieth = A.iterations c'.timer A.sixtieth := by
          rw [hom.iterations, hom.sixtieth]; rfl
        simp only [mapAnswer, mapClock, htimer, hom.timerLoop]
      | err f => rfl
    | fault f => rfl
    | refused r => rfl
  · rfl

theorem TimeArith.Hom.setRate (hz : K) (c : Clock K) :
    (c.map f).setRate B (f hz) = mapAnswer (Clock.map f) (c.setRate A hz) := by
  rw [Clock.setRate, Clock.setRate, hom.isPos]
  split
  · simp only [mapAnswer, Clock.map, hom.div, hom.one]
  · rfl

theorem TimeArith.Hom.multiplyRate (factor : K) (c : Clock K) :
    (c.map f).multiplyRate B (f factor) = mapAnswer (Clock.map f) (c.multiplyRate A factor) := by
  rw [Clock.multiplyRate, Clock.multiplyRate, hom.isPos]
  split
  · simp only [mapAnswer, Clock.map, hom.div]
  · rfl

end

/-! ### The scheduler on the state and on the reals -/

/-- What `advance` hands back of an answer of the scheduler: the clock is put into the state. -/
def answerWithClock (answer : State × Clock RealTerm × AdvanceResult) : State × AdvanceResult :=
  (answer.1.withClock answer.2.1, answer.2.2)

theorem advance_eq (ρ : RealValues) (q : RealTerm) (s : State) (p : Params) :
    advance ρ q s p = mapAnswer answerWithClock (advanceClock (.terms ρ) p q s.clock s) := by
  unfold advance
  split <;> next h => rw [h]; rfl

/-- The same call on the real numbers that the state's fields stand for. -/
theorem advanceClock_realClock (ρ : RealValues) (q : RealTerm) (s : State) (p : Params) :
    advanceClock (.field ℝ) p (q.value ρ) (s.realClock ρ) s =
      mapAnswer (mapClock (RealTerm.value ρ)) (advanceClock (.terms ρ) p q s.clock s) :=
  (TimeArith.hom_value ρ).advanceClock p q s.clock s

/-- The instruction loop touches neither the clock in the state nor the period of its own. -/
theorem instructionLoop_clock {K : Type} {A : TimeArith K} {p : Params} {n executed : Nat} {c c' : Clock K} {s t : State}
    {result : AdvanceResult} (h : instructionLoop A p n executed c s = .next (t, c', result)) :
    t.clock = s.clock ∧ c'.period = c.period := by
  induction n generalizing executed c s with
  | zero => cases h; exact ⟨rfl, rfl⟩
  | succ n ih =>
    rw [instructionLoop] at h
    split at h
    · cases h; exact ⟨rfl, rfl⟩
    · split at h
      · exact ih (c := c.rearmCpu A) h
      · obtain ⟨u, hu⟩ := stepWith_answers_next p s
        rw [hu] at h
        dsimp only at h
        split at h
        · cases h; exact ⟨stepWith_clock hu, rfl⟩
        · obtain ⟨hclock, hperiod⟩ := ih h
          exact ⟨hclock.trans (stepWith_clock hu), hperiod⟩

/-- Nor does a whole call. -/
theorem advanceClock_clock {K : Type} {A : TimeArith K} {p : Params} {dt : K} {c c' : Clock K} {s t : State}
    {result : AdvanceResult} (h : advanceClock A p dt c s = .next (t, c', result)) :
    t.clock = s.clock ∧ c'.period = c.period := by
  unfold advanceClock at h
  split at h
  · split at h
    · next hloop =>
      cases h
      have hclock := instructionLoop_clock hloop
      rw [timerLoop_frame]
      exact hclock
    · next hloop => cases h; exact instructionLoop_clock (c := c.elapse A dt) hloop
    · cases h
    · cases h
  · cases h

/-- A call on the state that answers, seen on the reals. -/
theorem advanceClock_of_advance {ρ : RealValues} {q : RealTerm} {s t : State} {p : Params} {result : AdvanceResult}
    (h : advance ρ q s p = .next (t, result)) :
    advanceClock (.field ℝ) p (q.value ρ) (s.realClock ρ) s = .next (t.withClock s.clock, t.realClock ρ, result) := by
  rw [advance_eq] at h
  obtain ⟨⟨u, c, r⟩, hterms, hput⟩ := mapAnswer_eq_next h
  cases hput
  rw [advanceClock_realClock, hterms, ← (advanceClock_clock hterms).1]
  rfl

/-- A call on the reals that answers, seen on the state: but for the two countdowns it is the state of the answer. -/
theorem advance_of_advanceClock {ρ : RealValues} {q : RealTerm} {s u : State} {p : Params} {c : Clock ℝ}
    {result : AdvanceResult} (h : advanceClock (.field ℝ) p (q.value ρ) (s.realClock ρ) s = .next (u, c, result)) :
    ∃ t, advance ρ q s p = .next (t, result) ∧ t.realClock ρ = c ∧
      t = { u with cpuCountdown := t.cpuCountdown, timerCountdown := t.timerCountdown } := by
  rw [advanceClock_realClock] at h
  obtain ⟨⟨u', terms, r⟩, hterms, hmap⟩ := mapAnswer_eq_next h
  cases hmap
  obtain ⟨hclock, hperiod⟩ := advanceClock_clock hterms
  have hterm : terms.period = u'.clockPeriod := hperiod.trans (congrArg Clock.period hclock).symm
  refine ⟨u'.withClock terms, by rw [advance_eq, hterms]; rfl, rfl, ?_⟩
  simp only [State.withClock, hterm]

/-- So is a refusal. -/
theorem advanceClock_of_advance_refused {ρ : RealValues} {q : RealTerm} {s : State} {p : Params} {why : Refusal}
    (h : advance ρ q s p = .refused why) :
    advanceClock (.field ℝ) p (q.value ρ) (s.realClock ρ) s = .refused why := by
  rw [advance_eq] at h
  rw [advanceClock_realClock, mapAnswer_eq_refused h, mapAnswer]

theorem State.putClock_eq (s : State) (o : Host.Outcome (Clock RealTerm) Fault Refusal) :
    s.putClock o = mapAnswer s.withClock o := by
  cases o <;> rfl

/-- A clock-rate call on the state is the one on the reals: `rate` is what the call makes of a clock of terms, `realRate` of a clock of
reals. -/
theorem realRate_of_putClock {ρ : RealValues} {s : State} {rate : Host.Outcome (Clock RealTerm) Fault Refusal}
    {realRate : Host.Outcome (Clock ℝ) Fault Refusal} (hrate : realRate = mapAnswer (Clock.map (RealTerm.value ρ)) rate) :
    (∀ t, s.putClock rate = .next t → realRate = .next (t.realClock ρ)) ∧
    (∀ why, s.putClock rate = .refused why → realRate = .refused why) := by
  rw [State.putClock_eq, hrate]
  constructor
  · intro t h
    obtain ⟨c, rfl, rfl⟩ := mapAnswer_eq_next h
    rfl
  · intro why h
    rw [mapAnswer_eq_refused h, mapAnswer]

/-- A carried-over call answers, or refuses, as the call it is carried over from. -/
theorem mapAnswer_agrees {α β : Type} {g : α → β} {o : Host.Outcome α Fault Refusal} {o' : Host.Outcome β Fault Refusal}
    (h : o' = mapAnswer g o) : (∀ a, o = .next a → o' = .next (g a)) ∧ (∀ why, o = .refused why → o' = .refused why) := by
  subst h
  exact ⟨fun a ha => by rw [ha, mapAnswer], fun why hw => by rw [hw, mapAnswer]⟩

/-! ### Every real clock is some state's -/

/-- The real numbers of a run whose host hands in a clock's three fields and an elapsed time. -/
def realValuesNaming (c : Clock ℝ) (dt : ℝ) : RealValues where
  clockPeriod := 1
  clockPeriod_pos := one_pos
  host k := if k = 0 then c.period else if k = 1 then c.cpu else if k = 2 then c.timer else dt

theorem realClock_realValuesNaming (c : Clock ℝ) (dt : ℝ) (s : State) :
    (s.withClock ⟨.host 0, .host 1, .host 2⟩).realClock (realValuesNaming c dt) = c := by
  simp [State.realClock, Clock.map, realValuesNaming]

/-- Settles O60: the terms are carried over to their values, the rationals to themselves. -/
theorem stateAndRationalClocksAgreeWithTheRealOne : Obligations.StateAndRationalClocksAgreeWithTheRealOne := by
  refine ⟨fun ρ p q s => ?_, fun c dt s => ?_, fun p q c s => ?_⟩
  · obtain ⟨hset, hset'⟩ := realRate_of_putClock (s := s) ((TimeArith.hom_value ρ).setRate q s.clock)
    obtain ⟨hmul, hmul'⟩ := realRate_of_putClock (s := s) ((TimeArith.hom_value ρ).multiplyRate q s.clock)
    exact ⟨fun t result => advanceClock_of_advance, fun why => advanceClock_of_advance_refused, hset, hset', hmul, hmul'⟩
  · exact ⟨realValuesNaming c dt, _, .host 3, realClock_realValuesNaming c dt s, by simp [realValuesNaming]⟩
  · obtain ⟨hadv, hadv'⟩ := mapAnswer_agrees (TimeArith.hom_cast.advanceClock p q c s)
    obtain ⟨hset, hset'⟩ := mapAnswer_agrees (TimeArith.hom_cast.setRate q c)
    obtain ⟨hmul, hmul'⟩ := mapAnswer_agrees (TimeArith.hom_cast.multiplyRate q c)
    exact ⟨fun t c' result => hadv (t, c', result), hadv', hset, hset', hmul, hmul'⟩

/-! ### Clock rates -/

theorem setClockRate_of_pos {ρ : RealValues} {q : RealTerm} (s : State) (h : 0 < q.value ρ) :
    setClockRate ρ q s = .next { s with clockPeriod := RealTerm.over (.rat 1) q } := by
  have hpos : (TimeArith.terms ρ).isPos q = true := ((TimeArith.hom_value ρ).isPos q).trans (decide_eq_true h)
  rw [setClockRate, Clock.setRate, if_pos hpos]
  rfl

theorem multiplyClockRate_of_pos {ρ : RealValues} {q : RealTerm} (s : State) (h : 0 < q.value ρ) :
    multiplyClockRate ρ q s = .next { s with clockPeriod := s.clockPeriod.over q } := by
  have hpos : (TimeArith.terms ρ).isPos q = true := ((TimeArith.hom_value ρ).isPos q).trans (decide_eq_true h)
  rw [multiplyClockRate, Clock.multiplyRate, if_pos hpos]
  rfl

/-- Settles O54: a comparison of terms is that of their values, and so is a quotient. -/
theorem clockRateSetsThePeriod : Obligations.ClockRateSetsThePeriod := by
  intro ρ s q
  refine ⟨fun h => ⟨⟨_, setClockRate_of_pos s h, ?_, rfl⟩, ⟨_, multiplyClockRate_of_pos s h, RealTerm.value_over ρ _ q, rfl⟩⟩,
    fun h => ?_⟩
  · rw [RealTerm.value_over, RealTerm.value_rat, Rat.cast_one]
  · have hneg : ¬ (TimeArith.terms ρ).isPos q = true := by
      rw [(TimeArith.hom_value ρ).isPos q]
      simpa using h
    rw [setClockRate, multiplyClockRate, Clock.setRate, Clock.multiplyRate, if_neg hneg, if_neg hneg]
    exact ⟨rfl, rfl⟩

end Sys2Proof.Machine
end

section
/-!
PROOFS. The scheduler's loops (spec/60_exceptions.md R224): what they leave on the countdowns of a clock over an ordered field,
how many steps and ticks they make, and O59, O53, O52 and O51, assembled from these.
-/

namespace Sys2Proof.Machine

/-! ### The instruction loop, iteration by iteration -/

section

variable {K : Type} {A : TimeArith K} {p : Params} {c : Clock K} {s : State}

theorem instructionLoop_succ_of_latch {r : Reg} (n executed : Nat) (hcpu : A.isPos c.cpu = false) (hl : s.latch = some r) :
    instructionLoop A p (n + 1) executed c s = instructionLoop A p n executed (c.rearmCpu A) s := by
  simp [instructionLoop, hcpu, hl]

theorem instructionLoop_succ_of_step {t : State} (n executed : Nat) (hcpu : A.isPos c.cpu = false) (hl : s.latch = none)
    (h : stepWith p s = .next t) (hf : t.fault = none) :
    instructionLoop A p (n + 1) executed c s = instructionLoop A p n (executed + 1) (c.rearmCpu A) t := by
  simp [instructionLoop, hcpu, hl, h, hf]

theorem instructionLoop_succ_of_fault {t : State} {f : Fault} (n executed : Nat) (hcpu : A.isPos c.cpu = false)
    (hl : s.latch = none) (h : stepWith p s = .next t) (hf : t.fault = some f) :
    instructionLoop A p (n + 1) executed c s = .next (t, c.rearmCpu A, .err f) := by
  simp [instructionLoop, hcpu, hl, h, hf]

/-- The loop answers, and hands on the fault that its last state has recorded. -/
theorem instructionLoop_answers (A : TimeArith K) (p : Params) (n executed : Nat) (c : Clock K) (s : State) :
    ∃ t c' result, instructionLoop A p n executed c s = .next (t, c', result) ∧ ∀ f, result = .err f → t.fault = some f := by
  induction n generalizing executed c s with
  | zero => exact ⟨s, c, _, rfl, fun f h => by cases h⟩
  | succ n ih =>
    cases hcpu : A.isPos c.cpu with
    | true => exact ⟨s, c, _, by rw [instructionLoop, if_pos hcpu], fun f h => by cases h⟩
    | false =>
      cases hl : s.latch with
      | some r =>
        rw [instructionLoop_succ_of_latch n executed hcpu hl]
        exact ih ..
      | none =>
        obtain ⟨t, ht⟩ := stepWith_answers_next p s
        cases hf : t.fault with
        | some f =>
          rw [instructionLoop_succ_of_fault n executed hcpu hl ht hf]
          exact ⟨t, _, _, rfl, fun f' h => by cases h; exact hf⟩
        | none =>
          rw [instructionLoop_succ_of_step n executed hcpu hl ht hf]
          exact ih ..

end

/-! ### Steps in a row -/

/-- A step answers. -/
theorem step_answers_next (s : State) : ∃ t, step s = .next t := stepWith_answers_next Params.default s

/-- A core that a step leaves as it is stays so under any number of steps. -/
theorem run_of_step_eq {s : State} (n : Nat) (h : step s = .next s) : core.run n s = .next s := by
  induction n with
  | zero => rfl
  | succ n ih => rw [core_run_succ core n s s h, ih]

/-! ### Ticks in a row -/

/-- Any number of ticks touch the two timers only. -/
theorem tick_iterate_frame (n : Nat) (s : State) :
    tick^[n] s = { s with dt := (tick^[n] s).dt, st := (tick^[n] s).st } := by
  induction n generalizing s with
  | zero => rfl
  | succ n ih => rw [Function.iterate_succ_apply, ih (tick s), tick_frame s]

/-- Each takes 1 from a timer that is not 0. -/
theorem tick_iterate_counts (n : Nat) {s : State} (hf : s.fault = none) :
    (tick^[n] s).dt.toNat = s.dt.toNat - n ∧ (tick^[n] s).st.toNat = s.st.toNat - n := by
  induction n generalizing s with
  | zero => exact ⟨rfl, rfl⟩
  | succ n ih =>
    have hf' : (tick s).fault = none := by rw [tick_frame]; exact hf
    obtain ⟨hdt, hst⟩ := tick_counts hf
    obtain ⟨hdt', hst'⟩ := ih hf'
    rw [Function.iterate_succ_apply, hdt', hst', hdt, hst]
    exact ⟨by omega, by omega⟩

section

variable {K : Type} [Field K] [LinearOrder K] [FloorRing K]

/-! ### Countdowns -/

/-- The clock after `n` clock periods have been added to the instruction countdown. -/
def Clock.addPeriods (c : Clock K) (n : Nat) : Clock K := { c with cpu := c.cpu + n * c.period }

/-- The clock after `n` sixtieths have been added to the timer countdown. -/
def Clock.addSixtieths (c : Clock K) (n : Nat) : Clock K := { c with timer := c.timer + n * (1 / 60) }

theorem Clock.addPeriods_zero (c : Clock K) : c.addPeriods 0 = c := by
  simp [Clock.addPeriods]

theorem Clock.addSixtieths_zero (c : Clock K) : c.addSixtieths 0 = c := by
  simp [Clock.addSixtieths]

theorem Clock.addPeriods_rearmCpu (c : Clock K) (n : Nat) :
    (c.rearmCpu (.field K)).addPeriods n = c.addPeriods (n + 1) := by
  simp only [Clock.addPeriods, Clock.rearmCpu, TimeArith.field_add]
  congr 1
  push_cast
  ring

theorem Clock.addSixtieths_rearmTimer (c : Clock K) (n : Nat) :
    (c.rearmTimer (.field K)).addSixtieths n = c.addSixtieths (n + 1) := by
  simp only [Clock.addSixtieths, Clock.rearmTimer, TimeArith.field_add, TimeArith.field_sixtieth]
  congr 1
  push_cast
  ring

variable [IsStrictOrderedRing K]

/-- No iteration is due at a positive countdown alone. -/
theorem pos_of_iterationsDue_eq_zero {c p : K} (hp : 0 < p) (h : iterationsDue c p = 0) : 0 < c := by
  by_contra hc
  rw [iterationsDue_of_nonpos hp (not_lt.mp hc)] at h
  cases h

/-- An iteration that is due is so at a countdown that is not positive, and after it one fewer is due. -/
theorem iterationsDue_eq_succ {c p : K} {n : Nat} (hp : 0 < p) (h : iterationsDue c p = n + 1) :
    c ≤ 0 ∧ iterationsDue (c + p) p = n := by
  have hc : c ≤ 0 := by
    by_contra hc
    rw [iterationsDue_of_pos (not_le.mp hc)] at h
    cases h
  rw [iterationsDue_of_nonpos hp hc, Nat.add_right_cancel_iff] at h
  exact ⟨hc, h⟩

/-- After the iterations due a countdown is positive, and at most one period if there were any. -/
theorem countdown_after_iterationsDue {c p : K} {n : Nat} (hp : 0 < p) (hn : iterationsDue c p = n) :
    0 < c + n * p ∧ (n = 0 ∨ c + n * p ≤ p) := by
  induction n generalizing c with
  | zero => exact ⟨by simpa using pos_of_iterationsDue_eq_zero hp hn, .inl rfl⟩
  | succ n ih =>
    obtain ⟨hc, hn'⟩ := iterationsDue_eq_succ hp hn
    obtain ⟨hpos, hle⟩ := ih hn'
    have hsum : c + ((n + 1 : Nat) : K) * p = c + p + n * p := by push_cast; ring
    rw [hsum]
    refine ⟨hpos, .inr ?_⟩
    rcases hle with rfl | hle
    · simpa using hc
    · exact hle

/-- Of a full period on the countdown, `n` periods later `n` iterations are due (D12). -/
theorem iterationsDue_of_periods {p : K} (hp : 0 < p) (n : Nat) : iterationsDue (p - n * p) p = n := by
  induction n with
  | zero => exact iterationsDue_of_pos (by simpa using hp)
  | succ n ih =>
    have hnp : 0 ≤ (n : K) * p := mul_nonneg (Nat.cast_nonneg n) hp.le
    have hsum : p - ((n + 1 : Nat) : K) * p + p = p - n * p := by push_cast; ring
    have hle : p - ((n + 1 : Nat) : K) * p ≤ 0 := by push_cast; linarith
    rw [iterationsDue_of_nonpos hp hle, hsum, ih]

/-! ### The two loops on a clock over a field -/

section

variable {c : Clock K} {n : Nat} (hp : 0 < c.period) (hn : iterationsDue c.cpu c.period = n)

include hp hn

/-- Awaiting a key, the loop makes no step and adds the periods due. -/
theorem instructionLoop_of_latch {p : Params} {s : State} {r : Reg} (executed : Nat) (hl : s.latch = some r) :
    instructionLoop (.field K) p n executed c s = .next (s, c.addPeriods n, .ok executed) := by
  induction n generalizing c with
  | zero => rw [Clock.addPeriods_zero]; rfl
  | succ n ih =>
    obtain ⟨hc, hn'⟩ := iterationsDue_eq_succ hp hn
    rw [instructionLoop_succ_of_latch n executed (decide_eq_false (not_lt.mpr hc)) hl, ← Clock.addPeriods_rearmCpu]
    exact ih hp hn'

/-- A loop that ends without a fault has added the periods due and made the steps that it counts: as many, or fewer if it ends with a
register awaiting a key. -/
theorem instructionLoop_ok {s t : State} {c' : Clock K} {executed total : Nat}
    (h : instructionLoop (.field K) Params.default n executed c s = .next (t, c', .ok total)) :
    c' = c.addPeriods n ∧ (s.fault = none → t.fault = none) ∧ ∃ j, total = executed + j ∧ core.run j s = .next t ∧ j ≤ n ∧
      (t.latch = none → j = n) := by
  induction n generalizing executed c s with
  | zero => cases h; exact ⟨(Clock.addPeriods_zero _).symm, id, 0, rfl, rfl, le_rfl, fun _ => rfl⟩
  | succ n ih =>
    cases hl : s.latch with
    | some r =>
      rw [instructionLoop_of_latch hp hn executed hl] at h
      cases h
      exact ⟨rfl, id, 0, rfl, rfl, Nat.zero_le _, fun h => by cases hl.symm.trans h⟩
    | none =>
      obtain ⟨hc, hn'⟩ := iterationsDue_eq_succ hp hn
      have hcpu : (TimeArith.field K).isPos c.cpu = false := decide_eq_false (not_lt.mpr hc)
      obtain ⟨u, hu⟩ := step_answers_next s
      cases hf : u.fault with
      | some f =>
        rw [instructionLoop_succ_of_fault n executed hcpu hl hu hf] at h
        cases h
      | none =>
        rw [instructionLoop_succ_of_step n executed hcpu hl hu hf] at h
        obtain ⟨hclock, hfault, j, hj, hrun, hle, hlatch⟩ := ih (c := c.rearmCpu (.field K)) hp hn' h
        refine ⟨hclock.trans (Clock.addPeriods_rearmCpu c n), fun _ => hfault hf, j + 1, by omega, ?_, by omega,
          fun h => by rw [hlatch h]⟩
        rw [core_run_succ core j s u hu, hrun]

/-- If the steps due, made in a row, end with neither a fault nor a key wait, the loop makes them all: a fault or a wait on the way
would have stayed. -/
theorem instructionLoop_of_run {s u : State} (executed : Nat) (h : core.run n s = .next u) (hf : u.fault = none)
    (hl : u.latch = none) :
    instructionLoop (.field K) Params.default n executed c s = .next (u, c.addPeriods n, .ok (executed + n)) := by
  induction n generalizing executed c s with
  | zero => cases h; rw [Clock.addPeriods_zero]; rfl
  | succ n ih =>
    obtain ⟨hc, hn'⟩ := iterationsDue_eq_succ hp hn
    have hcpu : (TimeArith.field K).isPos c.cpu = false := decide_eq_false (not_lt.mpr hc)
    have hsl : s.latch = none := by
      cases hsl : s.latch with
      | none => rfl
      | some r =>
        cases (run_of_step_eq (n + 1) (stepWith_of_latch hsl)).symm.trans h
        exact hsl.symm.trans hl
    obtain ⟨t, ht⟩ := step_answers_next s
    rw [core_run_succ core n s t ht] at h
    have htf : t.fault = none := by
      cases htf : t.fault with
      | none => rfl
      | some f =>
        cases (run_of_step_eq n (stepWith_of_fault htf)).symm.trans h
        exact htf.symm.trans hf
    rw [instructionLoop_succ_of_step n executed hcpu hsl ht htf, ← Clock.addPeriods_rearmCpu,
      show executed + (n + 1) = executed + 1 + n by omega]
    exact ih (c := c.rearmCpu (.field K)) hp hn' _ h

end

/-- The timer loop makes the ticks due and adds as many sixtieths. -/
theorem timerLoop_eq {c : Clock K} {n : Nat} (hn : iterationsDue c.timer (1 / 60) = n) (s : State) :
    timerLoop (.field K) n c s = (tick^[n] s, c.addSixtieths n) := by
  induction n generalizing c s with
  | zero => rw [Clock.addSixtieths_zero]; rfl
  | succ n ih =>
    obtain ⟨hc, hn'⟩ := iterationsDue_eq_succ (by norm_num) hn
    have htimer : ¬ (TimeArith.field K).isPos c.timer = true := by simpa using hc
    rw [timerLoop, if_neg htimer, Function.iterate_succ_apply, ← Clock.addSixtieths_rearmTimer]
    exact ih hn' (tick s)

/-! ### A whole call -/

section

variable {p : Params} {dt : K} {c c₁ : Clock K} {s u : State} {n : Nat} (hdt : 0 ≤ dt) (hp : 0 < c.period)
  (hn : iterationsDue (c.cpu - dt) c.period = n)

include hdt hp hn

/-- Within its contract a call whose instruction loop ends without a fault makes the ticks due after it. -/
theorem advanceClock_of_loop_ok {executed k : Nat}
    (hloop : instructionLoop (.field K) p n 0 (c.elapse (.field K) dt) s = .next (u, c₁, .ok executed))
    (hk : iterationsDue c₁.timer (1 / 60) = k) :
    advanceClock (.field K) p dt c s = .next (tick^[k] u, c₁.addSixtieths k, .ok executed) := by
  have hguard : ((TimeArith.field K).isNonneg dt && (TimeArith.field K).isPos c.period) = true := by simp [hdt, hp]
  have hdue : (TimeArith.field K).iterations (c.elapse (.field K) dt).cpu c.period = n := hn
  have hticks : (TimeArith.field K).iterations c₁.timer (TimeArith.field K).sixtieth = k := hk
  simp only [advanceClock, if_pos hguard, hdue, hloop, hticks, timerLoop_eq hk]

omit [IsStrictOrderedRing K] in
/-- One whose instruction loop ends with a fault hands it on at once (D13). -/
theorem advanceClock_of_loop_err {f : Fault}
    (hloop : instructionLoop (.field K) p n 0 (c.elapse (.field K) dt) s = .next (u, c₁, .err f)) :
    advanceClock (.field K) p dt c s = .next (u, c₁, .err f) := by
  have hguard : ((TimeArith.field K).isNonneg dt && (TimeArith.field K).isPos c.period) = true := by simp [hdt, hp]
  have hdue : (TimeArith.field K).iterations (c.elapse (.field K) dt).cpu c.period = n := hn
  simp only [advanceClock, if_pos hguard, hdue, hloop]

omit hn in
/-- So a call within its contract answers, and a fault it hands on is the recorded one. -/
theorem advanceClock_answers (p : Params) (s : State) :
    ∃ t c' result, advanceClock (.field K) p dt c s = .next (t, c', result) ∧
      ∀ f, result = .err f → t.fault = some f := by
  obtain ⟨u, c₁, result, hloop, herr⟩ := instructionLoop_answers (.field K) p (iterationsDue (c.cpu - dt) c.period) 0
    (c.elapse (.field K) dt) s
  cases result with
  | ok executed => exact ⟨_, _, _, advanceClock_of_loop_ok hdt hp rfl hloop rfl, fun f h => by cases h⟩
  | err f => exact ⟨_, _, _, advanceClock_of_loop_err hdt hp rfl hloop, herr⟩

end

omit [IsStrictOrderedRing K] in
/-- A call that answers was within its contract. -/
theorem contract_of_advanceClock {p : Params} {dt : K} {c c' : Clock K} {s t : State} {result : AdvanceResult}
    (h : advanceClock (.field K) p dt c s = .next (t, c', result)) : 0 ≤ dt ∧ 0 < c.period := by
  unfold advanceClock at h
  split at h
  · next hguard => simpa using hguard
  · cases h

/-- A call that answers Ok: `u` is the state after the steps that it reports, `n` the periods and `k` the ticks. -/
theorem advanceClock_ok {dt : K} {c c' : Clock K} {s t : State} {n executed : Nat}
    (hn : iterationsDue (c.cpu - dt) c.period = n)
    (h : advanceClock (.field K) Params.default dt c s = .next (t, c', .ok executed)) :
    ∃ (u : State) (k : Nat), core.run executed s = .next u ∧ t = tick^[k] u ∧ (s.fault = none → u.fault = none) ∧
      c' = ⟨c.period, c.cpu - dt + n * c.period, c.timer - dt + k * (1 / 60)⟩ ∧
      executed ≤ n ∧ (u.latch = none → executed = n) ∧ iterationsDue (c.timer - dt) (1 / 60) = k := by
  obtain ⟨hdt, hp⟩ := contract_of_advanceClock h
  obtain ⟨u, c₁, result, hloop, -⟩ := instructionLoop_answers (.field K) Params.default n 0 (c.elapse (.field K) dt) s
  cases result with
  | err f => cases (advanceClock_of_loop_err hdt hp hn hloop).symm.trans h
  | ok total =>
    cases (advanceClock_of_loop_ok hdt hp hn hloop rfl).symm.trans h
    obtain ⟨rfl, hfault, j, hj, hrun, hle, hlatch⟩ := instructionLoop_ok (c := c.elapse (.field K) dt) hp hn hloop
    obtain rfl : executed = j := hj.trans (Nat.zero_add j)
    exact ⟨u, _, hrun, rfl, hfault, rfl, hle, hlatch, rfl⟩

end

@[simp] theorem tick_iterate_latch (n : Nat) (s : State) : (tick^[n] s).latch = s.latch := by rw [tick_iterate_frame]

/-- Settles O59: the counts are those of the two loops, and each countdown is what its iterations leave. -/
theorem advanceIsTheStepsDueThenTheTicksDue : Obligations.AdvanceIsTheStepsDueThenTheTicksDue := by
  intro K _ _ _ _ dt c c' s t executed hs h
  obtain ⟨-, hp⟩ := contract_of_advanceClock h
  obtain ⟨u, k, hrun, rfl, hfault, rfl, hle, hlatch, hk⟩ := advanceClock_ok rfl h
  obtain ⟨hcpu, hcpu'⟩ := countdown_after_iterationsDue hp (c := c.cpu - dt) rfl
  obtain ⟨htimer, htimer'⟩ := countdown_after_iterationsDue (by norm_num) hk
  obtain ⟨hdt, hst⟩ := tick_iterate_counts k (hfault hs)
  exact ⟨u, _, k, hrun, tick_iterate_frame k u, hdt, hst, rfl, hle,
    fun hl => hlatch ((tick_iterate_latch k u).symm.trans hl), hcpu, hcpu', htimer, htimer'⟩

/-- Settles O53, on the reals that the state's fields stand for. -/
theorem advanceLeavesBothCountdownsPositive : Obligations.AdvanceLeavesBothCountdownsPositive := by
  intro ρ s t dt executed h
  have hreal := advanceClock_of_advance h
  obtain ⟨-, hp⟩ := contract_of_advanceClock hreal
  obtain ⟨u, k, -, -, -, hclock, -, -, hk⟩ := advanceClock_ok rfl hreal
  obtain ⟨-, hcpu, htimer⟩ := Clock.mk.inj hclock
  exact ⟨hcpu ▸ (countdown_after_iterationsDue hp rfl).1, htimer ▸ (countdown_after_iterationsDue (by norm_num) hk).1⟩

/-- Ticks and new countdowns together leave every other field. -/
theorem frame_after_ticks {k : Nat} {u t : State}
    (h : t = { tick^[k] u with cpuCountdown := t.cpuCountdown, timerCountdown := t.timerCountdown }) :
    t = { u with dt := t.dt, st := t.st, cpuCountdown := t.cpuCountdown, timerCountdown := t.timerCountdown } := by
  rw [tick_iterate_frame] at h
  rw [h]

/-- Settles O52: every iteration of the instruction loop is one that makes no step. -/
theorem advanceWhileAwaitingKeyExecutesNothing : Obligations.AdvanceWhileAwaitingKeyExecutesNothing := by
  intro ρ s dt r hdt hp hf hl
  have hloop := instructionLoop_of_latch (c := (s.realClock ρ).elapse (.field ℝ) (dt.value ρ)) (p := Params.default) hp rfl 0 hl
  obtain ⟨t, ht, hclock, hframe⟩ := advance_of_advanceClock (advanceClock_of_loop_ok hdt hp rfl hloop rfl)
  obtain ⟨-, hcpu, htimer⟩ := Clock.mk.inj hclock
  obtain ⟨hpos, hle⟩ := countdown_after_iterationsDue hp (c := s.cpuCountdown.value ρ - dt.value ρ) rfl
  obtain ⟨hpos', hle'⟩ := countdown_after_iterationsDue (p := (1 / 60 : ℝ)) (by norm_num)
    (c := s.timerCountdown.value ρ - dt.value ρ) rfl
  obtain ⟨hdtc, hstc⟩ := tick_iterate_counts (iterationsDue (s.timerCountdown.value ρ - dt.value ρ) (1 / 60)) hf
  refine ⟨t, _, _, ht, hcpu, hcpu ▸ hpos, hcpu ▸ hle, htimer, htimer ▸ hpos', htimer ▸ hle', ?_, ?_, frame_after_ticks hframe⟩
  · rw [hframe]; exact hdtc
  · rw [hframe]; exact hstc

/-- Settles O51: of a full period on the countdown, `n` periods later `n` iterations are due. -/
theorem advanceExecutesExactlyTheStepsDue : Obligations.AdvanceExecutesExactlyTheStepsDue := by
  intro ρ s dt n hp hcpu hdt
  have hn : iterationsDue ((s.realClock ρ).cpu - dt.value ρ) (s.realClock ρ).period = n := by
    show iterationsDue (s.cpuCountdown.value ρ - dt.value ρ) (s.clockPeriod.value ρ) = n
    rw [hcpu, hdt, iterationsDue_of_periods hp]
  have hdt0 : 0 ≤ dt.value ρ := by rw [hdt]; exact mul_nonneg (Nat.cast_nonneg n) hp.le
  obtain ⟨u, c, result, hcall, herr⟩ := advanceClock_answers hdt0 (c := s.realClock ρ) hp Params.default s
  obtain ⟨t, ht, -, hframe⟩ := advance_of_advanceClock hcall
  refine ⟨t, result, ht, fun (v : State) hrun hf hl => ?_, fun executed hok hl => ?_, fun f hres => ?_⟩
  · have hloop := instructionLoop_of_run (c := (s.realClock ρ).elapse (.field ℝ) (dt.value ρ)) hp hn 0 hrun hf hl
    cases (advanceClock_of_loop_ok hdt0 hp hn hloop rfl).symm.trans hcall
    exact ⟨by rw [Nat.zero_add], frame_after_ticks hframe⟩
  · subst hok
    obtain ⟨v, k, -, rfl, -, -, -, hlatch, -⟩ := advanceClock_ok hn hcall
    rw [hframe] at hl
    exact hlatch ((tick_iterate_latch k v).symm.trans hl)
  · rw [hframe]
    exact herr f hres

end Sys2Proof.Machine
end
